-- ==== Sys2Proof/Word.lean ====
section
/-! DEFINITION. The value types of the core: the 128-bit register value, its 64-bit lane, the byte, the 16-byte block
and the 16-bit command word (00_scope.md R1, R2, R3; 30_encoding.md R32). -/

namespace Sys2Proof

/-- One byte of a block (R2). -/
abbrev Byte := BitVec 8

/-- `LANEW` = 64: one lane of a register value (R1, R3). -/
abbrev Lane := BitVec 64

/-- `REGW` = 128: a register value, identified with an unsigned integer, bit 0 least significant (R3). Its bit `i` is
the coefficient of x^i (R5). -/
abbrev Word := BitVec 128

/-- `CMDW` = 16: a command word (R1, R32). -/
abbrev CmdWord := BitVec 16

/-- `BLOCKBYTES` = 16: the bytes `B[0]`, ..., `B[15]` of a block in sequence order (R2). -/
abbrev Block := Vector Byte 16

end Sys2Proof
end

