-- ==== Sys2Proof/Syntax.lean ====
section
/-! DEFINITION. The commands (30_encoding.md R32, R33, R37): one constructor of `Instr` per row of opcode_table.json.
The 128 bits of data-in travel beside the command word (R31, R37), so no constructor carries them. -/

namespace Sys2Proof

/-- A 3-bit register field: an index into the `V` file; no value of it is illegal (R37). -/
abbrev VIdx := Fin 8

/-- `sel` of `PMUL` (R35): the first letter is the lane of the first operand, the second that of the second. -/
inductive Selector where
  | ll
  | hl
  | lh
  | hh
deriving DecidableEq, Repr

/-- The fourteen commands with the fields each uses (R33). -/
inductive Instr where
  /-- `LDBLK rd` (R41). -/
  | ldblk (rd : VIdx)
  /-- `STBLK ra` (R42). -/
  | stblk (ra : VIdx)
  /-- `LDWIDE rd` (R43). -/
  | ldwide (rd : VIdx)
  /-- `VXOR rd, ra, rb` (R44). -/
  | vxor (rd ra rb : VIdx)
  /-- `PMUL rd, ra, rb, sel` (R50). -/
  | pmul (rd ra rb : VIdx) (sel : Selector)
  /-- `SWAP rd, ra` (R45). -/
  | swap (rd ra : VIdx)
  /-- `MVLH rd, ra` (R46). -/
  | mvlh (rd ra : VIdx)
  /-- `MVHL rd, ra` (R47). -/
  | mvhl (rd ra : VIdx)
  /-- `FMUL rd, ra, rb` (R60). -/
  | fmul (rd ra rb : VIdx)
  /-- `FADD rd, ra, rb` (R62). -/
  | fadd (rd ra rb : VIdx)
  /-- `ANEW` (R70). -/
  | anew
  /-- `AINPUT` (R71). -/
  | ainput
  /-- `ACHAIN` (R72). -/
  | achain
  /-- `ARESULT` (R73). -/
  | aresult
deriving DecidableEq, Repr

/-- The defined values of the `op` field, by name (R33). -/
inductive Opcode where
  | ldblk | stblk | ldwide | vxor | pmul | swap | mvlh | mvhl | fmul | fadd | anew | ainput | achain | aresult
deriving DecidableEq, Repr

/-- The six formats of R32. -/
inductive Format where
  | r3s | r3 | r2 | r1d | r1s | r0
deriving DecidableEq, Repr

/-- The row of R33 a command belongs to. -/
def Instr.opcode : Instr → Opcode
  | .ldblk _ => .ldblk
  | .stblk _ => .stblk
  | .ldwide _ => .ldwide
  | .vxor _ _ _ => .vxor
  | .pmul _ _ _ _ => .pmul
  | .swap _ _ => .swap
  | .mvlh _ _ => .mvlh
  | .mvhl _ _ => .mvhl
  | .fmul _ _ _ => .fmul
  | .fadd _ _ _ => .fadd
  | .anew => .anew
  | .ainput => .ainput
  | .achain => .achain
  | .aresult => .aresult

end Sys2Proof
end

