-- ==== Sys2Proof/Decode.lean ====
section
/-! DEFINITION. Command words: the decoder, total on every 16-bit word (30_encoding.md R32, R33, R34, R36), the encoder
written from the layout of R32, and R33's table of `match` and `mask`. -/

namespace Sys2Proof

/-! ### Fields (R32) -/

/-- Bits 15:12. -/
def fieldOp (w : CmdWord) : BitVec 4 := w.extractLsb' 12 4

/-- Bits 11:9, the destination index. -/
def fieldRd (w : CmdWord) : VIdx := (w.extractLsb' 9 3).toFin

/-- Bits 8:6, the first source index. -/
def fieldRa (w : CmdWord) : VIdx := (w.extractLsb' 6 3).toFin

/-- Bits 5:3, the second source index. -/
def fieldRb (w : CmdWord) : VIdx := (w.extractLsb' 3 3).toFin

/-- Bit 2, always 0. -/
def fieldZ (w : CmdWord) : Bool := w.getLsbD 2

/-- Bits 1:0, the lane selector. -/
def fieldSel (w : CmdWord) : BitVec 2 := w.extractLsb' 0 2

/-- R35: bit 0 chooses the lane of the first source, bit 1 that of the second; 1 is the high lane. -/
def Selector.ofBits (b : BitVec 2) : Selector :=
  match b.getLsbD 0, b.getLsbD 1 with
  | false, false => .ll
  | true, false => .hl
  | false, true => .lh
  | true, true => .hh

/-- R35's numbers. -/
def Selector.bits : Selector → BitVec 2
  | .ll => 0b00#2
  | .hl => 0b01#2
  | .lh => 0b10#2
  | .hh => 0b11#2

/-! ### Opcodes and formats (R32, R33) -/

/-- The `op` column of R33. -/
def Opcode.code : Opcode → BitVec 4
  | .ldblk => 0x1#4
  | .stblk => 0x2#4
  | .ldwide => 0x3#4
  | .vxor => 0x4#4
  | .pmul => 0x5#4
  | .swap => 0x6#4
  | .mvlh => 0x7#4
  | .mvhl => 0x8#4
  | .fmul => 0x9#4
  | .fadd => 0xA#4
  | .anew => 0xB#4
  | .ainput => 0xC#4
  | .achain => 0xD#4
  | .aresult => 0xE#4

/-- R33 read from the `op` field: 0x0 and 0xF are reserved. -/
def Opcode.ofCode (op : BitVec 4) : Option Opcode :=
  match op.toNat with
  | 0x0 => none
  | 0x1 => some .ldblk
  | 0x2 => some .stblk
  | 0x3 => some .ldwide
  | 0x4 => some .vxor
  | 0x5 => some .pmul
  | 0x6 => some .swap
  | 0x7 => some .mvlh
  | 0x8 => some .mvhl
  | 0x9 => some .fmul
  | 0xA => some .fadd
  | 0xB => some .anew
  | 0xC => some .ainput
  | 0xD => some .achain
  | 0xE => some .aresult
  | _ => none

/-- The `Format` column of R33. -/
def Opcode.format : Opcode → Format
  | .ldblk => .r1d
  | .stblk => .r1s
  | .ldwide => .r1d
  | .vxor => .r3
  | .pmul => .r3s
  | .swap => .r2
  | .mvlh => .r2
  | .mvhl => .r2
  | .fmul => .r3
  | .fadd => .r3
  | .anew => .r0
  | .ainput => .r0
  | .achain => .r0
  | .aresult => .r0

/-- `Fields used` of R32, as (rd, ra, rb, sel). -/
def Format.uses : Format → Bool × Bool × Bool × Bool
  | .r3s => (true, true, true, true)
  | .r3 => (true, true, true, false)
  | .r2 => (true, true, false, false)
  | .r1d => (true, false, false, false)
  | .r1s => (false, true, false, false)
  | .r0 => (false, false, false, false)

/-- R34: every field the format does not use is 0, and bit 2 is 0. -/
def Format.unusedZero (f : Format) (w : CmdWord) : Bool :=
  let u := f.uses
  (u.1 || fieldRd w == 0) && (u.2.1 || fieldRa w == 0) && (u.2.2.1 || fieldRb w == 0)
    && (u.2.2.2 || fieldSel w == 0#2) && !fieldZ w

/-! ### Decoder and encoder -/

/-- The command an opcode and a word's fields spell (R33). -/
def Opcode.build (op : Opcode) (w : CmdWord) : Instr :=
  match op with
  | .ldblk => .ldblk (fieldRd w)
  | .stblk => .stblk (fieldRa w)
  | .ldwide => .ldwide (fieldRd w)
  | .vxor => .vxor (fieldRd w) (fieldRa w) (fieldRb w)
  | .pmul => .pmul (fieldRd w) (fieldRa w) (fieldRb w) (Selector.ofBits (fieldSel w))
  | .swap => .swap (fieldRd w) (fieldRa w)
  | .mvlh => .mvlh (fieldRd w) (fieldRa w)
  | .mvhl => .mvhl (fieldRd w) (fieldRa w)
  | .fmul => .fmul (fieldRd w) (fieldRa w) (fieldRb w)
  | .fadd => .fadd (fieldRd w) (fieldRa w) (fieldRb w)
  | .anew => .anew
  | .ainput => .ainput
  | .achain => .achain
  | .aresult => .aresult

/-- R33, R34, R36: the command a word spells; `none` for a reserved word. -/
def decode (w : CmdWord) : Option Instr :=
  match Opcode.ofCode (fieldOp w) with
  | none => none
  | some op => if op.format.unusedZero w then some (op.build w) else none

/-- R32: `op << 12 | rd << 9 | ra << 6 | rb << 3 | z << 2 | sel`, with `z` = 0. -/
def pack (op : Opcode) (rd ra rb : VIdx) (sel : BitVec 2) : CmdWord :=
  op.code.setWidth 16 <<< 12 ||| BitVec.ofNat 16 rd.val <<< 9 ||| BitVec.ofNat 16 ra.val <<< 6
    ||| BitVec.ofNat 16 rb.val <<< 3 ||| sel.setWidth 16

/-- The word of a command (R32), a field it does not use being 0 (R34). -/
def encode : Instr → CmdWord
  | .ldblk rd => pack .ldblk rd 0 0 0#2
  | .stblk ra => pack .stblk 0 ra 0 0#2
  | .ldwide rd => pack .ldwide rd 0 0 0#2
  | .vxor rd ra rb => pack .vxor rd ra rb 0#2
  | .pmul rd ra rb sel => pack .pmul rd ra rb sel.bits
  | .swap rd ra => pack .swap rd ra 0 0#2
  | .mvlh rd ra => pack .mvlh rd ra 0 0#2
  | .mvhl rd ra => pack .mvhl rd ra 0 0#2
  | .fmul rd ra rb => pack .fmul rd ra rb 0#2
  | .fadd rd ra rb => pack .fadd rd ra rb 0#2
  | .anew => pack .anew 0 0 0 0#2
  | .ainput => pack .ainput 0 0 0 0#2
  | .achain => pack .achain 0 0 0 0#2
  | .aresult => pack .aresult 0 0 0 0#2

/-! ### The opcode table as R33 prints it -/

/-- The columns `match` and `mask` of R33. -/
def Opcode.row : Opcode → CmdWord × CmdWord
  | .ldblk => (0x1000#16, 0xF1FF#16)
  | .stblk => (0x2000#16, 0xFE3F#16)
  | .ldwide => (0x3000#16, 0xF1FF#16)
  | .vxor => (0x4000#16, 0xF007#16)
  | .pmul => (0x5000#16, 0xF004#16)
  | .swap => (0x6000#16, 0xF03F#16)
  | .mvlh => (0x7000#16, 0xF03F#16)
  | .mvhl => (0x8000#16, 0xF03F#16)
  | .fmul => (0x9000#16, 0xF007#16)
  | .fadd => (0xA000#16, 0xF007#16)
  | .anew => (0xB000#16, 0xFFFF#16)
  | .ainput => (0xC000#16, 0xFFFF#16)
  | .achain => (0xD000#16, 0xFFFF#16)
  | .aresult => (0xE000#16, 0xFFFF#16)

/-- R33: the word spells the command, that is `w AND mask = match`. -/
def Opcode.spells (op : Opcode) (w : CmdWord) : Bool := w &&& op.row.2 == op.row.1

/-! ### The host's entry points -/

/-- A command is one 16-bit word (R39): the word that `nbits` table bits with value `w` give, every bit above them 0.
`none` where a bit above the sixteenth is set, since no command is that long. -/
def tableWord (nbits w : Nat) : Option CmdWord :=
  if w % 2 ^ nbits < 2 ^ 16 then some (BitVec.ofNat 16 (w % 2 ^ nbits)) else none

/-- The command the decoder reads from a table row's word. -/
def decodeTableWord (nbits w : Nat) : Option Instr :=
  match tableWord nbits w with
  | none => none
  | some c => decode c

end Sys2Proof
end

