-- ==== Sys2Proof/Config.lean ====
section
/-! DEFINITION. The configuration of a core (00_scope.md R1, R7; 60_exceptions.md R89): which backend carries out the
partial multiply and whether the target has the carry-less-multiply instruction. It is fixed before the core exists and
no command reads or writes it. `TIMING` and `PLATFORM_BINDING` of R1 are open and no rule uses them (R30, R96): the
model leaves them out. No value of this hardware is left free (93_implementation_defined.md section 1.3), so there is no
opaque constant here. -/

namespace Sys2Proof

/-- `BACKEND` (R7): one carry-less-multiply instruction (R51), or the bit-serial loop (R52). -/
inductive Backend where
  | clmul
  | bitserial
deriving DecidableEq, Repr

/-- The pair (`BACKEND`, `HAS_CLMUL`) of R1. -/
structure Config where
  backend  : Backend
  hasClmul : Bool
deriving DecidableEq, Repr

/-- The configuration a selection makes (R7, R89): with no selection the backend is `BITSERIAL`. -/
def Config.select (choice : Option Backend) (hasClmul : Bool) : Config :=
  { backend := choice.getD .bitserial, hasClmul := hasClmul }

end Sys2Proof
end

