-- ==== Sys2Proof/Machine/Operands.lean ====
section
/-! DEFINITION. Values: lanes (00_scope.md R4), the block and its integer (R2, R22), the reduction constant (R6), the
carry-less product (R9), the contract of the register capability (40_register_capability.md R44 to R47,
41_clmul_unit.md R50), and which registers each command names (10_state.md R11). -/

namespace Sys2Proof.Machine

/-! ### Lanes (R4) -/

/-- `lo(v) = v[63:0]`. -/
def lo (v : Word) : Lane := v.extractLsb' 0 64

/-- `hi(v) = v[127:64]`. -/
def hi (v : Word) : Lane := v.extractLsb' 64 64

/-- `{h, l}`. -/
def ofLanes (h l : Lane) : Word := h ++ l

/-! ### Blocks (R2, R22) -/

/-- `B[k]`. -/
def byteAt (b : Block) (k : Nat) : Byte := if h : k < 16 then b[k] else 0#8

/-- The sum of `B[k] * 2^(8k)` over `k < n`; the terms share no bit. -/
def leBytes (b : Block) : Nat → Word
  | 0 => 0#128
  | n + 1 => leBytes b n ||| (byteAt b n).setWidth 128 <<< (8 * n)

/-- `LE128(B)` (R2). -/
def le128 (b : Block) : Word := leBytes b 16

/-- `BYTES(v)[k] = v[8k+7:8k]` (R2). -/
def bytes (v : Word) : Block := Vector.ofFn fun k : Fin 16 => v.extractLsb' (8 * k.val) 8

/-! ### The reduction constant (R6) -/

/-- `MASK`: bits 127, 126, 121 and 0. -/
def mask : Word := 0xC2000000000000000000000000000001#128

/-! ### The carry-less product (R9) -/

/-- XOR of `zext_128(x) << i` over the `i < n` with `y[i] = 1`. -/
def clmulTerms (x y : Lane) : Nat → Word
  | 0 => 0#128
  | n + 1 => clmulTerms x y n ^^^ (if y.getLsbD n then x.setWidth 128 <<< n else 0#128)

/-- `clmul64(x, y)` (R9). -/
def clmul64 (x y : Lane) : Word := clmulTerms x y 64

/-! ### Selectors (R35) -/

/-- The lane of the first operand: high for `HL` and `HH`. -/
def Selector.laneA (sel : Selector) (a : Word) : Lane :=
  match sel with
  | .ll => lo a
  | .hl => hi a
  | .lh => lo a
  | .hh => hi a

/-- The lane of the second operand: high for `LH` and `HH`. -/
def Selector.laneB (sel : Selector) (b : Word) : Lane :=
  match sel with
  | .ll => lo b
  | .hl => lo b
  | .lh => hi b
  | .hh => hi b

/-! ### The register capability (R48) -/

/-- The five structural operations, "the entire vocabulary the field-arithmetic layer is allowed to use" (R48). -/
structure Capability where
  xor  : Word → Word → Word
  swap : Word → Word
  mvlh : Word → Word
  mvhl : Word → Word
  pmul : Selector → Word → Word → Word

/-- The contract both backends meet: the values of R44, R45, R46, R47 and R50. -/
def contract : Capability where
  xor a b := a ^^^ b
  swap a := ofLanes (lo a) (hi a)
  mvlh a := ofLanes (lo a) 0#64
  mvhl a := ofLanes 0#64 (hi a)
  pmul sel a b := clmul64 (Selector.laneA sel a) (Selector.laneB sel b)

/-! ### Registers named by a command (R11) -/

/-- The source registers, in the order they are read (R40). -/
def sources : Instr → List VIdx
  | .ldblk _ => []
  | .stblk ra => [ra]
  | .ldwide _ => []
  | .vxor _ ra rb => [ra, rb]
  | .pmul _ ra rb _ => [ra, rb]
  | .swap _ ra => [ra]
  | .mvlh _ ra => [ra]
  | .mvhl _ ra => [ra]
  | .fmul _ ra rb => [ra, rb]
  | .fadd _ ra rb => [ra, rb]
  | .anew => []
  | .ainput => []
  | .achain => []
  | .aresult => []

/-- The destination register. -/
def destination : Instr → Option VIdx
  | .ldblk rd => some rd
  | .stblk _ => none
  | .ldwide rd => some rd
  | .vxor rd _ _ => some rd
  | .pmul rd _ _ _ => some rd
  | .swap rd _ => some rd
  | .mvlh rd _ => some rd
  | .mvhl rd _ => some rd
  | .fmul rd _ _ => some rd
  | .fadd rd _ _ => some rd
  | .anew => none
  | .ainput => none
  | .achain => none
  | .aresult => none

/-- The commands that need a live accumulator (R74). -/
def needsLive : Instr → Bool
  | .ainput => true
  | .achain => true
  | .aresult => true
  | .ldblk _ => false
  | .stblk _ => false
  | .ldwide _ => false
  | .vxor _ _ _ => false
  | .pmul _ _ _ _ => false
  | .swap _ _ => false
  | .mvlh _ _ => false
  | .mvhl _ _ => false
  | .fmul _ _ _ => false
  | .fadd _ _ _ => false
  | .anew => false

end Sys2Proof.Machine
end

