-- ==== Sys2Proof/Machine/Backends.lean ====
section
/-! DEFINITION. How the two backends carry out the register capability: the means of 40_register_capability.md R49 and
41_clmul_unit.md R51 (hardware) and R52 (software). The machine runs the operations of the backend its configuration
selects (R7). That both meet `contract` (R8, R53) is a statement, not a mechanism. -/

namespace Sys2Proof.Machine

/-! ### The hardware backend (R49, R51) -/

/-- The 32-bit word `w_k`, bits `32k+31:32k` (R49). -/
def word32 (v : Word) (k : Nat) : BitVec 32 := v.extractLsb' (32 * k) 32

/-- "Reinterpreting the 128-bit value as four 32-bit words, permuting them in pairs, and reloading":
`(w0, w1, w2, w3)` becomes `(w2, w3, w0, w1)` (R49). -/
def hardwareSwap (v : Word) : Word := word32 v 1 ++ word32 v 0 ++ word32 v 3 ++ word32 v 2

/-- The temporary two-lane buffer (R18, R49): lane 0, then lane 1. -/
def storeLanes (v : Word) : Lane × Lane := (lo v, hi v)

/-- The reload of the buffer. -/
def loadLanes (b : Lane × Lane) : Word := ofLanes b.2 b.1

/-- Store, put lane 0 into lane 1 and zero lane 0, reload (R46, R49). -/
def hardwareMvlh (v : Word) : Word :=
  let b := storeLanes v
  loadLanes (0#64, b.1)

/-- Store, put lane 1 into lane 0 and zero lane 1, reload (R47, R49). -/
def hardwareMvhl (v : Word) : Word :=
  let b := storeLanes v
  loadLanes (b.2, 0#64)

/-- The carry-less-multiply instruction: the product of two 64-bit halves selected by its immediate operand (R51). -/
def clmulInstruction (imm : Selector) (a b : Word) : Word := clmul64 (Selector.laneA imm a) (Selector.laneB imm b)

/-- The register capability on the hardware backend. -/
def hardwareCapability : Capability where
  xor a b := a ^^^ b
  swap := hardwareSwap
  mvlh := hardwareMvlh
  mvhl := hardwareMvhl
  pmul := clmulInstruction

/-! ### The software backend (R49, R52) -/

/-- "Ordinary 64-bit XOR" on each of two explicit lanes (R49). -/
def softwareXor (a b : Word) : Word := ofLanes (hi a ^^^ hi b) (lo a ^^^ lo b)

/-- The exchange of the two stored lanes (R45, R49). -/
def softwareSwap (a : Word) : Word := ofLanes (lo a) (hi a)

/-- R46 on the two stored lanes. -/
def softwareMvlh (a : Word) : Word := ofLanes (lo a) 0#64

/-- R47 on the two stored lanes. -/
def softwareMvhl (a : Word) : Word := ofLanes 0#64 (hi a)

/-- One pass of the loop of R52 over the accumulator `(acc1, acc0)`: with the bit set, XOR `x` into `acc1`; then shift
right by one across both lanes, the bit `acc1` loses becoming the top bit of `acc0`. -/
def serialPass (x : Lane) (bit : Bool) (acc : Lane × Lane) : Lane × Lane :=
  let acc1 := if bit then acc.1 ^^^ x else acc.1
  let e := acc1.getLsbD 0
  (acc1 >>> 1, acc.2 >>> 1 ||| (if e then 1#64 <<< 63 else 0#64))

/-- The accumulator after the passes `i = 0, ..., n - 1`, in ascending order (R52). -/
def serialLoop (x y : Lane) : Nat → Lane × Lane
  | 0 => (0#64, 0#64)
  | n + 1 => serialPass x (y.getLsbD n) (serialLoop x y n)

/-- The 64 passes of R52: `{ acc1, acc0 }`. -/
def serialMultiply (x y : Lane) : Word :=
  let acc := serialLoop x y 64
  ofLanes acc.1 acc.2

/-- `partial_multiply` of the software backend: the lanes of R50, the loop of R52. -/
def softwarePmul (sel : Selector) (a b : Word) : Word :=
  serialMultiply (Selector.laneA sel a) (Selector.laneB sel b)

/-- The register capability on the software backend. -/
def softwareCapability : Capability where
  xor := softwareXor
  swap := softwareSwap
  mvlh := softwareMvlh
  mvhl := softwareMvhl
  pmul := softwarePmul

/-- R7: the register capability of the selected backend. -/
def capabilityOf (b : Backend) : Capability :=
  match b with
  | .clmul => hardwareCapability
  | .bitserial => softwareCapability

end Sys2Proof.Machine
end

