-- ==== Sys2Proof/Machine/State.lean ====
section
/-! DEFINITION. The state of one core (10_state.md R10 to R19), what its two ports hold, and what the host presents
next (30_encoding.md R31; 20_memory.md R26), with the reasons a step can stop (60_exceptions.md R82). -/

namespace Sys2Proof.Machine

/-- The faults of R82. -/
inductive Fault where
  /-- R11, R82 case b: a command reads a `V` register that no command has written since reset. Raised by the reading of
  a source register (`withSource`, Ops.lean). Safe: the spec gives the read no value and no next state. -/
  | unwrittenRegister (i : VIdx)
deriving DecidableEq, Repr

/-- The refusals of R82. -/
inductive Refusal where
  /-- An instruction without a meaning, by its mnemonic. No arm of `exec` raises it. Safe: nothing follows from it. -/
  | notModelled (mnemonic : String)
  /-- R36, R82 case a: the command word spells no command. Raised by `step`. Safe: the spec gives it no meaning. -/
  | illegalCommand
  /-- R74, R82 case c: `AINPUT`, `ACHAIN` or `ARESULT` with `LIVE` = 0. Raised by `withLive` (Ops.lean). Safe: the spec
  gives it no meaning. -/
  | noLiveAccumulator
  /-- R7, R82 case e: `BACKEND = CLMUL` on a target without the instruction. Raised by `powerOn` and by `step`. Safe: no
  core exists. -/
  | badConfiguration
deriving DecidableEq, Repr

/-- What the host can present between two commands: a command word with the 128 bits of data-in (R31), or the
platform's reset (R90). A command that takes no data ignores `din` (R25). -/
inductive HostEvent where
  | command (cmd : CmdWord) (din : Block)
  | reset
deriving DecidableEq, Repr

/-- R10: the whole architectural state is `v` (with `written`), `accH`, `accS` and `live`. `cfg` is the configuration
(R1), which no step writes. `din`, `dout` and `pending` are the transaction of R31: its two ports and what the host will
present, oldest first. -/
structure State where
  /-- (`BACKEND`, `HAS_CLMUL`), R1, R7. -/
  cfg     : Config
  /-- `V[0]` to `V[7]` (R11). The value of a register that was never written is never read. -/
  v       : Vector Word 8
  /-- Whether a command has written `V[i]` since reset (R11, R19). -/
  written : Vector Bool 8
  /-- `H`, the accumulator's multiplier (R12). -/
  accH    : Word
  /-- `S`, the accumulator's running state (R13). -/
  accS    : Word
  /-- `LIVE` (R14). -/
  live    : Bool
  /-- The data-in port: the block that came with the current command (R31). -/
  din     : Block
  /-- The data-out port: the block the last command returned, if it returned one (R31). -/
  dout    : Option Block
  /-- What the host presents next, oldest first (R26). -/
  pending : List HostEvent
deriving DecidableEq, Repr

/-- The state right after reset (R19, R90) of a core with configuration `cfg`, with nothing presented yet. -/
def State.resetWith (cfg : Config) : State :=
  { cfg := cfg
    v := Vector.replicate 8 0#128
    written := Vector.replicate 8 false
    accH := 0#128
    accS := 0#128
    live := false
    din := Vector.replicate 16 0#8
    dout := none
    pending := [] }

/-- The state right after reset. With no selection the backend is `BITSERIAL` (R7). -/
def State.reset : State := State.resetWith (Config.select none false)

end Sys2Proof.Machine
end

