-- ==== Sys2Proof/WellFormed.lean ====
section
/-! DEFINITION. Well-formedness. Every term of `Instr` is well formed: a register field is a `Fin 8` and every index is
legal (30_encoding.md R37), and a selector is one of four (R35). The spec's check is on the configuration (00_scope.md
R7). The check on command words (R34, R36) is the decoder's, in Decode.lean, and the check on the host's sequence of
commands (70_reset_and_hazards.md R91) is in Safety.lean. -/

namespace Sys2Proof

/-- R7: `BACKEND = CLMUL` implies `HAS_CLMUL`. -/
def Config.wellFormed (c : Config) : Bool :=
  match c.backend with
  | .clmul => c.hasClmul
  | .bitserial => true

end Sys2Proof
end

