-- ==== Sys2Proof/Machine/Ops.lean ====
section
/-! DEFINITION. The named operations every meaning is made of: reading and writing `V` registers
(40_register_capability.md R40), the two ports (30_encoding.md R31), the accumulator (43_accumulator.md R74), the
taking of a command and the reset event (20_memory.md R26; 70_reset_and_hazards.md R90). There is no memory, flag,
exception or trap (20_memory.md R21; 10_state.md R16; 60_exceptions.md R80, R84), so there is no operation for one. -/

namespace Sys2Proof.Machine

/-- The outcome of a command. -/
abbrev Result := Host.Outcome State Fault Refusal

/-- The register capability of the core's backend (R7). -/
def State.capability (s : State) : Capability := capabilityOf s.cfg.backend

/-! ### V registers (R11, R40) -/

/-- What register `i` holds, where it was written. -/
def State.vreg (s : State) (i : VIdx) : Word := s.v[i.val]

/-- Whether a command has written register `i` since reset (R11). -/
def State.isWritten (s : State) (i : VIdx) : Bool := s.written[i.val]

/-- `V[i] <- x` (R40 step 4). -/
def State.writeV (s : State) (i : VIdx) (x : Word) : State :=
  { s with v := s.v.set i.val x i.isLt, written := s.written.set i.val true i.isLt }

/-- `V[i]` (R40 step 2). The fault is the spec's own, not for want of a value in `State`: "a command that reads it is
`fault UnwrittenRegister(i)`: the model must not supply zero or any other value" (10_state.md R11; the table of faults,
60_exceptions.md R82 case b; 92_eei_decisions.md D9). A free value is ruled out too: "not `any value`, because a value,
even arbitrary, would let a read succeed" (93_implementation_defined.md U9). -/
def withSource (i : VIdx) (s : State) (k : Word → Result) : Result :=
  match s.isWritten i with
  | true => k (s.vreg i)
  | false => .fault (.unwrittenRegister i)

/-- A command of one source: read `ra`, compute, write `rd` (R40). -/
def unary (f : Word → Word) (rd ra : VIdx) (s : State) : Result :=
  withSource ra s fun a => .next (s.writeV rd (f a))

/-- A command of two sources: read `ra`, then `rb`, compute, write `rd` (R40). -/
def binary (f : Word → Word → Word) (rd ra rb : VIdx) (s : State) : Result :=
  withSource ra s fun a => withSource rb s fun b => .next (s.writeV rd (f a b))

/-! ### The ports (R23, R31, R100) -/

/-- `DinBlock()`. -/
def State.dinBlock (s : State) : Block := s.din

/-- `DinInt() = LE128(DinBlock())`. -/
def State.dinInt (s : State) : Word := le128 s.dinBlock

/-- `DoutBlock(B)`. -/
def State.returnBlock (s : State) (b : Block) : State := { s with dout := some b }

/-! ### The accumulator (R12 to R14, R74) -/

/-- `H <- h`, `S <- acc`, `LIVE <- alive`. -/
def State.setAccumulator (s : State) (h acc : Word) (alive : Bool) : State :=
  { s with accH := h, accS := acc, live := alive }

/-- The lifecycle check of R74. -/
def withLive (s : State) (k : Result) : Result :=
  match s.live with
  | true => k
  | false => .refused .noLiveAccumulator

/-! ### Between commands -/

/-- The core takes one command from the host: its block stands on data-in, and data-out is empty until the command
returns a block (R25, R31). -/
def State.takeCommand (s : State) (din : Block) (rest : List HostEvent) : State :=
  { s with din := din, dout := none, pending := rest }

/-- The reset event of R90: `H`, `S`, `LIVE` and the `V` file; the configuration is not changed. -/
def State.hostReset (s : State) (rest : List HostEvent) : State :=
  { s with
    v := Vector.replicate 8 0#128
    written := Vector.replicate 8 false
    accH := 0#128
    accS := 0#128
    live := false
    dout := none
    pending := rest }

/-- With nothing presented the core is idle and keeps its state (R88, R97). -/
def idle (s : State) : Result := .next s

/-- A reserved word (R36, R82 case a). -/
def rejectWord : Result := .refused .illegalCommand

/-- An ill-formed configuration (R82 case e). -/
def rejectConfiguration : Result := .refused .badConfiguration

/-- The core that a selection makes (R7, R89, R91): refused before any accumulator is constructed where the
configuration is ill formed. -/
def powerOn (choice : Option Backend) (hasClmul : Bool) : Result :=
  match (Config.select choice hasClmul).wellFormed with
  | true => .next (State.resetWith (Config.select choice hasClmul))
  | false => rejectConfiguration

/-- The host presents the word of a table row next, with the block that stands on data-in. -/
def State.present (s : State) (nbits w : Nat) : State :=
  match tableWord nbits w with
  | some c => { s with pending := .command c s.din :: s.pending }
  | none => s

end Sys2Proof.Machine
end

