-- ==== Sys2Proof/Machine/Field.lean ====
section
/-! DEFINITION. The field layer: the reduction and the field multiplication (42_field_arithmetic.md R60, R61), written
over a register capability and `MASK` alone (40_register_capability.md R48), and the commands `FMUL` and `FADD`. -/

namespace Sys2Proof.Machine

/-- `reduce(v)`, line for line (R61). -/
def fieldReduce (c : Capability) (v : Word) : Word :=
  let p := c.pmul .hl mask v
  let q := c.xor (c.swap v) p
  let r := c.pmul .hl mask q
  c.xor (c.swap q) r

/-- `low256`: bits 127:0 of the 256-bit product (R60). -/
def productLow (c : Capability) (a b : Word) : Word :=
  c.xor (c.pmul .ll a b) (c.mvlh (c.xor (c.pmul .hl a b) (c.pmul .lh a b)))

/-- `high256`: bits 255:128 of the 256-bit product (R60). -/
def productHigh (c : Capability) (a b : Word) : Word :=
  c.xor (c.pmul .hh a b) (c.mvhl (c.xor (c.pmul .hl a b) (c.pmul .lh a b)))

/-- `fmul(a, b)`: `high256 xor reduce(low256)` (R60). -/
def fieldMul (c : Capability) (a b : Word) : Word :=
  c.xor (productHigh c a b) (fieldReduce c (productLow c a b))

/-- `reduce` on the contract of the register capability: the value R61 gives. -/
def reduce (v : Word) : Word := fieldReduce contract v

/-- `fmul` on the contract of the register capability: the value R60 gives. -/
def fmul (a b : Word) : Word := fieldMul contract a b

/-- R60: `V[rd] <- fmul(V[ra], V[rb])`. -/
def execFmul (rd ra rb : VIdx) (s : State) : Result := binary (fieldMul s.capability) rd ra rb s

/-- R62: `V[rd] <- V[ra] xor V[rb]`. -/
def execFadd (rd ra rb : VIdx) (s : State) : Result := binary s.capability.xor rd ra rb s

end Sys2Proof.Machine
end

