-- ==== Sys2Proof/Machine/Accumulator.lean ====
section
/-! DEFINITION. The hash accumulator: `ANEW`, `AINPUT`, `ACHAIN`, `ARESULT` (43_accumulator.md R70 to R74). -/

namespace Sys2Proof.Machine

/-- `S <- fmul(S xor X, H)` with `H` and `LIVE` unchanged (R71). -/
def State.foldBlock (s : State) (x : Word) : State :=
  s.setAccumulator s.accH (fieldMul s.capability (s.capability.xor s.accS x) s.accH) s.live

/-- R70: `H <- LE128(h)`, `S <- 0`, `LIVE <- 1`, whether or not an accumulator was live. -/
def execAnew (s : State) : Result := .next (s.setAccumulator (le128 s.dinBlock) 0#128 true)

/-- R71: fold the block on data-in. -/
def execAinput (s : State) : Result := withLive s (.next (s.foldBlock (le128 s.dinBlock)))

/-- R72: the state change of `AINPUT` with the same block. -/
def execAchain (s : State) : Result := withLive s (.next (s.foldBlock (le128 s.dinBlock)))

/-- R73: return `S`, then zero `H` and `S` and end the accumulator (R77). -/
def execAresult (s : State) : Result :=
  withLive s (.next ((s.returnBlock (bytes s.accS)).setAccumulator 0#128 0#128 false))

end Sys2Proof.Machine
end

