-- ==== Sys2Proof/Machine/Register.lean ====
section
/-! DEFINITION. The register capability: `LDBLK`, `STBLK`, `LDWIDE`, `VXOR`, `SWAP`, `MVLH`, `MVHL`
(40_register_capability.md R40 to R47) and `PMUL` (41_clmul_unit.md R50). -/

namespace Sys2Proof.Machine

/-- R41: `V[rd] <- LE128(DinBlock())`. -/
def execLdblk (rd : VIdx) (s : State) : Result := .next (s.writeV rd (le128 s.dinBlock))

/-- R42: `DoutBlock(BYTES(V[ra]))`. -/
def execStblk (ra : VIdx) (s : State) : Result := withSource ra s fun a => .next (s.returnBlock (bytes a))

/-- R43: `V[rd] <- DinInt()`. -/
def execLdwide (rd : VIdx) (s : State) : Result := .next (s.writeV rd s.dinInt)

/-- R44: `V[rd] <- V[ra] xor V[rb]`. -/
def execVxor (rd ra rb : VIdx) (s : State) : Result := binary s.capability.xor rd ra rb s

/-- R50: `V[rd] <- clmul64` of the lanes `sel` chooses. -/
def execPmul (rd ra rb : VIdx) (sel : Selector) (s : State) : Result := binary (s.capability.pmul sel) rd ra rb s

/-- R45: exchange the lanes. -/
def execSwap (rd ra : VIdx) (s : State) : Result := unary s.capability.swap rd ra s

/-- R46: the low lane to the high position, zero the low. -/
def execMvlh (rd ra : VIdx) (s : State) : Result := unary s.capability.mvlh rd ra s

/-- R47: the high lane to the low position, zero the high. -/
def execMvhl (rd ra : VIdx) (s : State) : Result := unary s.capability.mvhl rd ra s

end Sys2Proof.Machine
end

