-- ==== Sys2Proof/Machine/Dispatch.lean ====
section
/-! DEFINITION. One arm per command of 30_encoding.md R33. -/

namespace Sys2Proof.Machine

def exec (i : Instr) (s : State) : Host.Outcome State Fault Refusal :=
  match i with
  | .ldblk rd => Sys2Proof.Machine.execLdblk rd s
  | .stblk ra => Sys2Proof.Machine.execStblk ra s
  | .ldwide rd => Sys2Proof.Machine.execLdwide rd s
  | .vxor rd ra rb => Sys2Proof.Machine.execVxor rd ra rb s
  | .pmul rd ra rb sel => Sys2Proof.Machine.execPmul rd ra rb sel s
  | .swap rd ra => Sys2Proof.Machine.execSwap rd ra s
  | .mvlh rd ra => Sys2Proof.Machine.execMvlh rd ra s
  | .mvhl rd ra => Sys2Proof.Machine.execMvhl rd ra s
  | .fmul rd ra rb => Sys2Proof.Machine.execFmul rd ra rb s
  | .fadd rd ra rb => Sys2Proof.Machine.execFadd rd ra rb s
  | .anew => Sys2Proof.Machine.execAnew s
  | .ainput => Sys2Proof.Machine.execAinput s
  | .achain => Sys2Proof.Machine.execAchain s
  | .aresult => Sys2Proof.Machine.execAresult s

end Sys2Proof.Machine
end

