-- ==== Sys2Proof/Machine/Step.lean ====
section
/-! DEFINITION. One step: one event of the host, completely, before the next (20_memory.md R26). The core does not
fetch (10_state.md R15): a program is the sequence of commands the host presents. -/

namespace Sys2Proof.Machine

/-- An ill-formed configuration has no step (R82 case e). With nothing presented the core idles (R88); the reset event
is R90; a command is decoded first (R83) and then executed as its rule says. -/
def step (s : State) : Host.Outcome State Fault Refusal :=
  match s.cfg.wellFormed, s.pending with
  | false, _ => rejectConfiguration
  | true, [] => idle s
  | true, .reset :: rest => .next (s.hostReset rest)
  | true, .command cmd din :: rest =>
    match decode cmd with
    | none => rejectWord
    | some i => exec i (s.takeCommand din rest)

/-- The host presents a table row's word as its next command. -/
def State.withFetchWord (s : State) (nbits w : Nat) : State := s.present nbits w

end Sys2Proof.Machine
end

