-- ==== Sys2Proof/Algebra.lean ====
section
/-! DEFINITION. The reading of a bit vector as a polynomial over the two-element field (00_scope.md R5), with the field
polynomial `P` (R1, R6). Statements use it to say what the field layer computes (42_field_arithmetic.md R63). The
machine does not use it. -/

namespace Sys2Proof

/-- R5: bit `i` is the coefficient of x^i. -/
noncomputable def toPoly {w : Nat} (v : BitVec w) : Polynomial (ZMod 2) :=
  ∑ i ∈ Finset.range w, if v.getLsbD i then Polynomial.X ^ i else 0

/-- `P = x^128 + x^127 + x^126 + x^121 + 1` (R1). -/
noncomputable def fieldPoly : Polynomial (ZMod 2) :=
  Polynomial.X ^ 128 + Polynomial.X ^ 127 + Polynomial.X ^ 126 + Polynomial.X ^ 121 + 1

end Sys2Proof
end

