-- ==== Sys2Proof/Machine/Cores.lean ====
section
/-! DEFINITION. Several cores (60_exceptions.md R87): any number may exist under one configuration, and a command to one
has no effect on another. A core that faults or is refused keeps its mark (R85) while the others go on. -/

namespace Sys2Proof.Machine

/-- One core of a system: still running, or stopped with the mark that R85 keeps for the rest of its run. A stopped core
has no state, as R82 gives it none. -/
inductive CoreRun where
  | running (s : State)
  | faulted (f : Fault)
  | refused (r : Refusal)
deriving DecidableEq, Repr

/-- A system of cores: the configuration, "the one thing common to them" (R87), and the cores by position; the spec gives
a core no identifier of its own. -/
structure System where
  cfg   : Config
  cores : List CoreRun
deriving DecidableEq, Repr

/-- A core after a step's outcome. -/
def CoreRun.ofResult : Result → CoreRun
  | .next t => .running t
  | .fault f => .faulted f
  | .refused r => .refused r

/-- A running core takes one step; a stopped one stays stopped (R85). -/
def CoreRun.advance : CoreRun → CoreRun
  | .running s => CoreRun.ofResult (step s)
  | .faulted f => .faulted f
  | .refused r => .refused r

/-- Whether a core that runs does so under the configuration `c`. -/
def CoreRun.underConfig (c : Config) : CoreRun → Bool
  | .running s => s.cfg == c
  | .faulted _ => true
  | .refused _ => true

/-- R87: the configuration applies "uniformly to all accumulator instances in a process". -/
def System.uniform (sys : System) : Bool := sys.cores.all (CoreRun.underConfig sys.cfg)

/-- A well-formed configuration (R7), common to all cores (R87). -/
def System.wellFormed (sys : System) : Bool := sys.cfg.wellFormed && sys.uniform

/-- The system of `n` cores that one selection makes (R7, R87, R89), each right after reset. -/
def systemPowerOn (choice : Option Backend) (hasClmul : Bool) (n : Nat) : Host.Outcome System Fault Refusal :=
  match (Config.select choice hasClmul).wellFormed with
  | true =>
    .next { cfg := Config.select choice hasClmul
            cores := List.replicate n (.running (State.resetWith (Config.select choice hasClmul))) }
  | false => .refused .badConfiguration

/-- One more core under the common configuration: a host "needing parallel hashing of independent messages" constructs an
independent accumulator (R87). -/
def System.addCore (sys : System) : System :=
  { sys with cores := sys.cores ++ [.running (State.resetWith sys.cfg)] }

/-- Core `k` takes one step, and its outcome is its own: the system has a next state whether that core goes on, faults or
is refused. A system whose configuration is ill formed or not common has no step but `BadConfiguration`. `none` where
there is no core `k`. -/
def stepCore (k : Nat) (sys : System) : Option (Host.Outcome System Fault Refusal) :=
  match sys.wellFormed, sys.cores[k]? with
  | false, _ => some (.refused .badConfiguration)
  | true, none => none
  | true, some c => some (.next { sys with cores := sys.cores.set k c.advance })

end Sys2Proof.Machine
end

