-- ==== Sys2Proof/Safety.lean ====
section
/-! DEFINITION. What counts as a safe run, in the terms the statements use: the host's duties of
70_reset_and_hazards.md R91 and R94 as a check on what it presents, made without executing it ("a model may equally
forbid it statically", 43_accumulator.md R74), and the consistency of a state. -/

namespace Sys2Proof.Machine

/-- `k` steps of the machine, stopping at the first fault or refusal: the mark of a stopped run stays (R85). -/
def runSteps (k : Nat) (s : State) : Result := Host.Core.run core k s

/-- `LIVE` after a command of the accumulator or of the `V` file (R74). -/
def liveAfter (i : Instr) (live : Bool) : Bool :=
  match i.opcode with
  | .anew => true
  | .aresult => false
  | .ldblk | .stblk | .ldwide | .vxor | .pmul | .swap | .mvlh | .mvhl | .fmul | .fadd | .ainput | .achain => live

/-- Which registers are written after a command (R11). -/
def writtenAfter (i : Instr) (written : Vector Bool 8) : Vector Bool 8 :=
  match destination i with
  | some rd => written.set rd.val true rd.isLt
  | none => written

/-- A command within the contract: an accumulator where it needs one, and every source written (R91 items 2, 3). -/
def admitted (i : Instr) (live : Bool) (written : Vector Bool 8) : Bool :=
  (!needsLive i || live) && (sources i).all fun r => written[r.val]

/-- A sequence of events within the contract (R91, R94): every word spells a command, and every command is within the
contract after the ones before it. -/
def admits : Bool → Vector Bool 8 → List HostEvent → Bool
  | _, _, [] => true
  | _, _, .reset :: rest => admits false (Vector.replicate 8 false) rest
  | live, written, .command w _ :: rest =>
    match decode w with
    | none => false
    | some i => admitted i live written && admits (liveAfter i live) (writtenAfter i written) rest

/-- A well-formed core whose host keeps its duties in everything it presents (R91). -/
def State.safe (s : State) : Bool := s.cfg.wellFormed && admits s.live s.written s.pending

/-- "When `LIVE = 0`, `H` and `S` are zero" (R14), and a register that was never written holds the zero the model gives
it at reset, so that equal contents are equal data. -/
def State.consistent (s : State) : Bool :=
  (s.live || (s.accH == 0#128 && s.accS == 0#128))
    && (List.finRange 8).all fun i => s.isWritten i || s.vreg i == 0#128

end Sys2Proof.Machine
end

