-- ==== Sys2Proof/Certificates/Slice0/Obligations.lean ====
section
/-! DEFINITION. The statements for the provers. The definitions of the namespace `Sys2Proof.Claim` spell the rules out
where a statement would otherwise lean on the model's own composition of operations. -/

namespace Sys2Proof.Claim

open Sys2Proof.Machine

/-- Everything but the `V` file is the same: the accumulator, the configuration, the ports and what the host presents. -/
def SameOutsideV (s t : State) : Prop :=
  t.accH = s.accH ∧ t.accS = s.accS ∧ t.live = s.live ∧ t.cfg = s.cfg ∧ t.din = s.din ∧ t.dout = s.dout
    ∧ t.pending = s.pending

/-- Every `V` register is the same. -/
def SameV (s t : State) : Prop := ∀ j : VIdx, t.vreg j = s.vreg j ∧ t.isWritten j = s.isWritten j

/-- `V[rd] <- x` and nothing else (R40 step 4). -/
def WritesV (s t : State) (rd : VIdx) (x : Word) : Prop :=
  t.vreg rd = x ∧ t.isWritten rd = true
    ∧ (∀ j : VIdx, j ≠ rd → t.vreg j = s.vreg j ∧ t.isWritten j = s.isWritten j) ∧ SameOutsideV s t

/-- The accumulator becomes (`h`, `acc`, `alive`), data-out becomes `out`, and nothing else changes. -/
def WritesAccumulator (s t : State) (h acc : Word) (alive : Bool) (out : Option Block) : Prop :=
  t.accH = h ∧ t.accS = acc ∧ t.live = alive ∧ t.dout = out ∧ SameV s t ∧ t.cfg = s.cfg ∧ t.din = s.din
    ∧ t.pending = s.pending

/-- A command of one source computes `f` (R40): it completes where the source was written and faults where not. -/
def UnaryCommand (i : Instr) (rd ra : VIdx) (f : Word → Word) : Prop :=
  ∀ s : State,
    (s.isWritten ra = true → ∃ t : State, exec i s = .next t ∧ WritesV s t rd (f (s.vreg ra)))
      ∧ (s.isWritten ra = false → exec i s = .fault (.unwrittenRegister ra))

/-- A command of two sources computes `f` (R40): it completes where both were written, and faults on the first, in the
order `ra` then `rb`, that was not. -/
def BinaryCommand (i : Instr) (rd ra rb : VIdx) (f : Word → Word → Word) : Prop :=
  ∀ s : State,
    (s.isWritten ra = true → s.isWritten rb = true →
        ∃ t : State, exec i s = .next t ∧ WritesV s t rd (f (s.vreg ra) (s.vreg rb)))
      ∧ (s.isWritten ra = false → exec i s = .fault (.unwrittenRegister ra))
      ∧ (s.isWritten ra = true → s.isWritten rb = false → exec i s = .fault (.unwrittenRegister rb))

/-- A register index in place in a command word (R32). -/
def at9 (r : VIdx) : CmdWord := BitVec.ofNat 16 r.val <<< 9

/-- See `at9`. -/
def at6 (r : VIdx) : CmdWord := BitVec.ofNat 16 r.val <<< 6

/-- See `at9`. -/
def at3 (r : VIdx) : CmdWord := BitVec.ofNat 16 r.val <<< 3

/-- `reduce(v)` of R61, spelled on lanes: `pmul(MASK, u, HL)` is `hi(MASK)` times `lo(u)`. -/
def reduceValue (v : Word) : Word :=
  let p := clmul64 0xC200000000000000#64 (lo v)
  let q := (lo v ++ hi v) ^^^ p
  let r := clmul64 0xC200000000000000#64 (lo q)
  (lo q ++ hi q) ^^^ r

/-- `fmul(a, b)` of R60, spelled on lanes. -/
def fmulValue (a b : Word) : Word :=
  let t1 := clmul64 (lo a) (lo b)
  let t2 := clmul64 (hi a) (lo b)
  let t3 := clmul64 (lo a) (hi b)
  let t4 := clmul64 (hi a) (hi b)
  let m := t2 ^^^ t3
  let low256 := t1 ^^^ (lo m ++ 0#64)
  let high256 := t4 ^^^ (0#64 ++ hi m)
  high256 ^^^ reduceValue low256

/-- The outcome with its next state, if it has one, put through `f`. -/
def mapNext (f : State → State) : Result → Result
  | .next t => .next (f t)
  | .fault r => .fault r
  | .refused r => .refused r

/-- The four commands of 43_accumulator.md. -/
def isAccumulatorCommand (i : Instr) : Prop := i = .anew ∨ i = .ainput ∨ i = .achain ∨ i = .aresult

/-- The same state under another configuration. -/
def withConfig (s : State) (c : Config) : State := { s with cfg := c }

/-- The state whose host presents `events` next. -/
def presenting (s : State) (events : List HostEvent) : State := { s with pending := events }

/-- A block folded by `AINPUT` (`false`) or by `ACHAIN` (`true`), in the host's hands. -/
def inputEvent (x : Bool × Block) : HostEvent := .command (if x.1 then 0xD000#16 else 0xC000#16) x.2

/-- A whole hash: `ANEW h`, the inputs in order, `ARESULT` with whatever stands on data-in. -/
def hashEvents (h : Block) (xs : List (Bool × Block)) (d : Block) : List HostEvent :=
  .command 0xB000#16 h :: (xs.map inputEvent ++ [.command 0xE000#16 d])

/-- `H^k`, the `k`-fold `fmul` power (R75); the empty power is the identity `MASK` (R64). -/
def fieldPower (h : Word) : Nat → Word
  | 0 => mask
  | k + 1 => fmul (fieldPower h k) h

/-- `X_1 * H^n xor X_2 * H^(n-1) xor ... xor X_n * H` (R75). -/
def hornerSum (h : Word) : List Word → Word
  | [] => 0#128
  | x :: xs => fmul x (fieldPower h (xs.length + 1)) ^^^ hornerSum h xs

/-- The seventeen commands of R67 by their words. Only the tenth, `LDWIDE V6`, takes data, and it takes `MASK`; what
stands on data-in with the others is `d`. -/
def expansion (d : Block) : List HostEvent :=
  [.command 0x5408#16 d, .command 0x5609#16 d, .command 0x580A#16 d, .command 0x5A0B#16 d, .command 0x46E0#16 d,
   .command 0x78C0#16 d, .command 0x86C0#16 d, .command 0x44A0#16 d, .command 0x4B58#16 d,
   .command 0x3C00#16 #v[0x01, 0, 0, 0, 0, 0, 0, 0, 0, 0, 0, 0, 0, 0, 0, 0xC2],
   .command 0x5791#16 d, .command 0x6880#16 d, .command 0x4918#16 d, .command 0x57A1#16 d, .command 0x6900#16 d,
   .command 0x4918#16 d, .command 0x4560#16 d]

end Sys2Proof.Claim

open Sys2Proof Sys2Proof.Machine Sys2Proof.Claim

/-! ### Command words -/

/-- One word of each family, from the examples of 30_encoding.md section 7. -/
def Obligations.SpecWordsDecode : Prop :=
  decode 0x1E00#16 = some (.ldblk 7) ∧ decode 0x46E0#16 = some (.vxor 3 3 4)
    ∧ decode 0x5609#16 = some (.pmul 3 0 1 .hl) ∧ decode 0xA488#16 = some (.fadd 2 2 1)
    ∧ decode 0xE000#16 = some .aresult ∧ decode 0x5004#16 = none

/-- Every command at every operand has exactly one word, and every word spells at most one command: the layout of R32
read both ways (95_test_vectors.md section 6.3). -/
def Obligations.DecodeEncodeAgree : Prop :=
  ∀ (w : CmdWord) (i : Instr), decode w = some i ↔ encode i = w

/-- R33: the decoder, which reads fields and checks the unused ones, agrees with the table's `match` and `mask` on
every word and every row. -/
def Obligations.DecoderAgreesWithOpcodeTable : Prop :=
  ∀ (w : CmdWord) (op : Opcode), (∃ i, decode w = some i ∧ i.opcode = op) ↔ w &&& op.row.2 = op.row.1

/-- R36: a word that matches no row of R33 spells no command, and presenting it is `refuse IllegalCommand`. -/
def Obligations.ReservedWordsAreRefused : Prop :=
  ∀ (s : State) (w : CmdWord) (din : Block) (rest : List HostEvent),
    s.cfg.wellFormed = true → s.pending = .command w din :: rest →
    ((∀ op : Opcode, w &&& op.row.2 ≠ op.row.1) ↔ step s = .refused .illegalCommand)

/-! ### Steps, reset, configuration -/

/-- A step runs the command that the host's next word spells, on the state in which its block stands on data-in and
data-out is empty (the model's choice, notes/assumptions/5.md); and that word is the one `withFetchWord` presents
(notes/assumptions/6.md). -/
def Obligations.StepRunsTheDecodedCommand : Prop :=
  (∀ (s : State) (w : CmdWord) (din : Block) (rest : List HostEvent) (i : Instr),
    s.cfg.wellFormed = true → s.pending = .command w din :: rest → decode w = some i →
    step s = exec i { s with din := din, dout := none, pending := rest })
  ∧ ∀ (s : State) (w : CmdWord) (i : Instr), s.cfg.wellFormed = true → decode w = some i →
    decodeTableWord 16 w.toNat = some i ∧ step (s.withFetchWord 16 w.toNat) = exec i { s with dout := none }

/-- R88: between commands the core is idle and keeps its state. That idling is a step is the model's choice
(notes/assumptions/5.md). -/
def Obligations.IdleCoreKeepsItsState : Prop :=
  ∀ s : State, s.cfg.wellFormed = true → s.pending = [] → step s = .next s

/-- R26, R93: one step consumes exactly one event, and no step changes the configuration. R25 and R31: `STBLK` and
`ARESULT` return a block and no other command does. That `dout` is EMPTY after every other command, rather than still
holding an earlier command's block, is the model's choice (notes/assumptions/5.md). -/
def Obligations.OneEventPerStep : Prop :=
  ∀ s t : State, step s = .next t →
    t.pending = s.pending.tail ∧ t.cfg = s.cfg
      ∧ ∀ (w : CmdWord) (din : Block) (rest : List HostEvent) (i : Instr),
          s.pending = .command w din :: rest → decode w = some i →
          ((t.dout ≠ none) ↔ (i.opcode = .stblk ∨ i.opcode = .aresult))

/-- R19: what reset leaves, whatever the configuration: no register written, so that every command that reads one
faults on the first it reads; `H`, `S` and `LIVE` zero. -/
def Obligations.ResetLeavesTheSpecState : Prop :=
  State.reset.accH = 0#128 ∧ State.reset.accS = 0#128 ∧ State.reset.live = false
    ∧ (∀ i : VIdx, State.reset.isWritten i = false)
    ∧ (∀ (i : Instr) (r : VIdx), (sources i).head? = some r → exec i State.reset = .fault (.unwrittenRegister r))
    ∧ ∀ c : Config, (State.resetWith c).accH = 0#128 ∧ (State.resetWith c).accS = 0#128
        ∧ (State.resetWith c).live = false ∧ ∀ i : VIdx, (State.resetWith c).isWritten i = false

/-- R90: the reset event, from any state: `LIVE`, `H`, `S` zero, no `V` register written, the configuration unchanged;
the core then waits for the next command. That data-out is then empty is the model's choice (notes/assumptions/8.md). -/
def Obligations.ResetEventErases : Prop :=
  ∀ (s : State) (rest : List HostEvent), s.cfg.wellFormed = true → s.pending = .reset :: rest →
    ∃ t : State, step s = .next t ∧ t.live = false ∧ t.accH = 0#128 ∧ t.accS = 0#128
      ∧ (∀ i : VIdx, t.isWritten i = false) ∧ t.cfg = s.cfg ∧ t.pending = rest ∧ t.dout = none

/-- R7, R89: with no selection the portable backend and no failure; an ill-formed configuration is refused when the core
would be made (the two clauses on `powerOn`). The spec says that no core exists then (R82 case e) and defines no step of
one: the last clause, that every step of a state which holds such a configuration is `BadConfiguration`, is the model's
choice (notes/assumptions/3.md). -/
def Obligations.IllFormedConfigurationIsRefused : Prop :=
  (∀ b : Bool, powerOn none b = .next (State.resetWith { backend := .bitserial, hasClmul := b }))
    ∧ (∀ (c : Backend) (b : Bool),
        ((c = .clmul → b = true) → powerOn (some c) b = .next (State.resetWith { backend := c, hasClmul := b }))
          ∧ (c = .clmul → b = false → powerOn (some c) b = .refused .badConfiguration))
    ∧ ∀ s : State, s.cfg.backend = .clmul → s.cfg.hasClmul = false → step s = .refused .badConfiguration

/-! ### The register capability -/

/-- R41, with its corner cases: every block is legal, no two load the same value, and the zero block loads 0. -/
def Obligations.LdblkLoadsTheBlock : Prop :=
  ∀ rd : VIdx, decode (0x1000#16 ||| at9 rd) = some (.ldblk rd)
    ∧ (∀ s : State, ∃ t : State, exec (.ldblk rd) s = .next t ∧ WritesV s t rd (le128 s.din)
        ∧ (∀ k : Fin 16, (t.vreg rd).extractLsb' (8 * k.val) 8 = s.din[k.val]))
    ∧ (∀ b b' : Block, le128 b = le128 b' → b = b') ∧ le128 (Vector.replicate 16 0#8) = 0#128

/-- R42: the block, nothing else, the same block again when repeated, and the inverse law both ways; and what a command
returns, of whatever kind, does not depend on `H` or on `LIVE`. -/
def Obligations.StblkReturnsTheRegister : Prop :=
  ∀ ra : VIdx, decode (0x2000#16 ||| at6 ra) = some (.stblk ra)
    ∧ (∀ s : State,
        (s.isWritten ra = true → ∃ t : State, exec (.stblk ra) s = .next t ∧ SameV s t
            ∧ t.accH = s.accH ∧ t.accS = s.accS ∧ t.live = s.live ∧ t.cfg = s.cfg ∧ t.din = s.din
            ∧ t.pending = s.pending ∧ exec (.stblk ra) t = .next t
            ∧ ∃ b : Block, t.dout = some b ∧ ∀ k : Fin 16, b[k.val] = (s.vreg ra).extractLsb' (8 * k.val) 8)
          ∧ (s.isWritten ra = false → exec (.stblk ra) s = .fault (.unwrittenRegister ra)))
    ∧ (∀ s t u : State, exec (.ldblk ra) s = .next t → exec (.stblk ra) t = .next u → u.dout = some s.din)
    ∧ (∀ (s t u : State) (b : Block), exec (.stblk ra) s = .next t → t.dout = some b →
        exec (.ldblk ra) { t with din := b } = .next u → u.vreg ra = s.vreg ra)
    ∧ ∀ (i : Instr) (s t u : State) (h : Word) (alive : Bool), exec i s = .next t →
        exec i { s with accH := h, live := alive } = .next u → u.dout = t.dout

/-- R43: bit `i` of the register is bit `i` of the integer on data-in, and `LDWIDE rd, x` writes what
`LDBLK rd, BYTES(x)` writes. -/
def Obligations.LdwideLoadsTheInteger : Prop :=
  ∀ rd : VIdx, decode (0x3000#16 ||| at9 rd) = some (.ldwide rd)
    ∧ (∀ (s : State) (x : Word), s.din = bytes x → ∃ t : State, exec (.ldwide rd) s = .next t ∧ WritesV s t rd x)
    ∧ ∀ s : State, exec (.ldwide rd) s = exec (.ldblk rd) s

/-- R44, lane by lane and bit by bit; its laws; `VXOR rd, ra, ra` writes 0. -/
def Obligations.VxorWritesTheXor : Prop :=
  ∀ rd ra rb : VIdx, decode (0x4000#16 ||| at9 rd ||| at6 ra ||| at3 rb) = some (.vxor rd ra rb)
    ∧ BinaryCommand (.vxor rd ra rb) rd ra rb (fun a b => (hi a ^^^ hi b) ++ (lo a ^^^ lo b))
    ∧ BinaryCommand (.vxor rd ra rb) rd ra rb (fun a b => a ^^^ b)
    ∧ UnaryCommand (.vxor rd ra ra) rd ra (fun _ => 0#128)
    ∧ ∀ a b c : Word, a ^^^ b = b ^^^ a ∧ (a ^^^ b) ^^^ c = a ^^^ (b ^^^ c) ∧ a ^^^ 0#128 = a ∧ a ^^^ a = 0#128

/-- R45: the lanes exchanged, which is a rotation by 64 bits; twice is nothing; it distributes over XOR; the bytes move
as `B'[k] = B[(k+8) mod 16]`. -/
def Obligations.SwapExchangesTheLanes : Prop :=
  ∀ rd ra : VIdx, decode (0x6000#16 ||| at9 rd ||| at6 ra) = some (.swap rd ra)
    ∧ UnaryCommand (.swap rd ra) rd ra (fun a => lo a ++ hi a)
    ∧ UnaryCommand (.swap rd ra) rd ra (fun a => a.rotateLeft 64)
    ∧ (∀ s t u : State, exec (.swap rd ra) s = .next t → exec (.swap ra rd) t = .next u → u.vreg ra = s.vreg ra)
    ∧ (∀ a b : Word, (lo (a ^^^ b) ++ hi (a ^^^ b) : Word) = (lo a ++ hi a) ^^^ (lo b ++ hi b))
    ∧ ∀ (s t : State), exec (.swap rd ra) s = .next t →
        ∀ k : Fin 16, byteAt (bytes (t.vreg rd)) k.val = byteAt (bytes (s.vreg ra)) ((k.val + 8) % 16)

/-- R46: as an integer `(a << 64) mod 2^128`, as a polynomial `lo(a) * x^64`. -/
def Obligations.MvlhMovesLowToHigh : Prop :=
  ∀ rd ra : VIdx, decode (0x7000#16 ||| at9 rd ||| at6 ra) = some (.mvlh rd ra)
    ∧ UnaryCommand (.mvlh rd ra) rd ra (fun a => lo a ++ 0#64)
    ∧ UnaryCommand (.mvlh rd ra) rd ra (fun a => a <<< 64)
    ∧ ∀ a : Word, toPoly (lo a ++ 0#64 : Word) = toPoly (lo a) * Polynomial.X ^ 64

/-- R47: as an integer `a >> 64`; with `MVLH` it makes the two halves of the 256-bit `a * x^64`. -/
def Obligations.MvhlMovesHighToLow : Prop :=
  ∀ rd ra : VIdx, decode (0x8000#16 ||| at9 rd ||| at6 ra) = some (.mvhl rd ra)
    ∧ UnaryCommand (.mvhl rd ra) rd ra (fun a => 0#64 ++ hi a)
    ∧ UnaryCommand (.mvhl rd ra) rd ra (fun a => a >>> 64)
    ∧ ∀ a : Word, ((0#64 ++ hi a) ++ (lo a ++ 0#64) : BitVec 256) = a.setWidth 256 <<< 64

/-- R50: the four selectors' lanes, bit 127 always 0, and the corner cases. -/
def Obligations.PmulMultipliesTheSelectedLanes : Prop :=
  (∀ rd ra rb : VIdx,
    (decode (0x5000#16 ||| at9 rd ||| at6 ra ||| at3 rb ||| 0#16) = some (.pmul rd ra rb .ll)
      ∧ BinaryCommand (.pmul rd ra rb .ll) rd ra rb (fun a b => clmul64 (lo a) (lo b)))
    ∧ (decode (0x5000#16 ||| at9 rd ||| at6 ra ||| at3 rb ||| 1#16) = some (.pmul rd ra rb .hl)
      ∧ BinaryCommand (.pmul rd ra rb .hl) rd ra rb (fun a b => clmul64 (hi a) (lo b)))
    ∧ (decode (0x5000#16 ||| at9 rd ||| at6 ra ||| at3 rb ||| 2#16) = some (.pmul rd ra rb .lh)
      ∧ BinaryCommand (.pmul rd ra rb .lh) rd ra rb (fun a b => clmul64 (lo a) (hi b)))
    ∧ (decode (0x5000#16 ||| at9 rd ||| at6 ra ||| at3 rb ||| 3#16) = some (.pmul rd ra rb .hh)
      ∧ BinaryCommand (.pmul rd ra rb .hh) rd ra rb (fun a b => clmul64 (hi a) (hi b)))
    ∧ ∀ (sel : Selector) (s t : State), exec (.pmul rd ra rb sel) s = .next t → (t.vreg rd).getLsbD 127 = false)
  ∧ clmul64 0xFFFFFFFFFFFFFFFF#64 0xFFFFFFFFFFFFFFFF#64 = 0x55555555555555555555555555555555#128
  ∧ clmul64 0x8000000000000000#64 0x8000000000000000#64 = 0x40000000000000000000000000000000#128
  ∧ (∀ x : Lane, clmul64 x 0#64 = 0#128 ∧ clmul64 0#64 x = 0#128 ∧ clmul64 x 1#64 = x.setWidth 128
      ∧ clmul64 1#64 x = x.setWidth 128)
  ∧ ∀ (x : Lane) (i : Fin 64), (clmul64 x x).getLsbD (2 * i.val) = x.getLsbD i.val
      ∧ (clmul64 x x).getLsbD (2 * i.val + 1) = false

/-! ### The field layer -/

/-- R60 and R61: the sequence, spelled on lanes, with R60's corner cases and R61's examples. -/
def Obligations.FmulRunsTheSourceSequence : Prop :=
  (∀ rd ra rb : VIdx, decode (0x9000#16 ||| at9 rd ||| at6 ra ||| at3 rb) = some (.fmul rd ra rb)
    ∧ BinaryCommand (.fmul rd ra rb) rd ra rb fmulValue)
  ∧ (∀ a : Word, fmulValue a 0#128 = 0#128 ∧ fmulValue 0#128 a = 0#128
      ∧ fmulValue a 0xC2000000000000000000000000000001#128 = a ∧ (a ≠ 0#128 → fmulValue a 1#128 ≠ a))
  ∧ reduceValue 1#128 = 0x92040000000000000000000000000001#128
  ∧ reduceValue 0xC2000000000000000000000000000001#128 = 1#128
  ∧ reduceValue 0x00000000000000010000000000000000#128 = 0x0000000000000001C200000000000000#128

/-- R62: field addition with its laws, and in every state the outcome of `VXOR` on the same registers. -/
def Obligations.FaddIsTheXor : Prop :=
  ∀ rd ra rb : VIdx, decode (0xA000#16 ||| at9 rd ||| at6 ra ||| at3 rb) = some (.fadd rd ra rb)
    ∧ BinaryCommand (.fadd rd ra rb) rd ra rb (fun a b => a ^^^ b)
    ∧ (∀ s : State, exec (.fadd rd ra rb) s = exec (.vxor rd ra rb) s)
    ∧ ∀ a : Word, a ^^^ le128 (Vector.replicate 16 0#8) = a ∧ a ^^^ a = 0#128

/-! ### The accumulator -/

/-- R70: in both lifecycle states. -/
def Obligations.AnewStartsAnAccumulator : Prop :=
  decode 0xB000#16 = some .anew
    ∧ ∀ s : State, ∃ t : State, exec .anew s = .next t ∧ WritesAccumulator s t (le128 s.din) 0#128 true s.dout

/-- R71, with its corner cases; `LIVE = 0` is `refuse NoLiveAccumulator`. -/
def Obligations.AinputFoldsOneBlock : Prop :=
  decode 0xC000#16 = some .ainput
    ∧ (∀ s : State, s.live = true →
        ∃ t : State, exec .ainput s = .next t
          ∧ WritesAccumulator s t s.accH (fmulValue (s.accS ^^^ le128 s.din) s.accH) true s.dout
          ∧ (s.din = Vector.replicate 16 0#8 → t.accS = fmulValue s.accS s.accH)
          ∧ (s.accH = 0#128 → t.accS = 0#128)
          ∧ (s.accH = 0xC2000000000000000000000000000001#128 → t.accS = s.accS ^^^ le128 s.din))
    ∧ ∀ s : State, s.live = false → exec .ainput s = .refused .noLiveAccumulator

/-- R72: the state change of `AINPUT` with the same block, in every state. -/
def Obligations.AchainFoldsOneBlock : Prop :=
  decode 0xD000#16 = some .achain
    ∧ (∀ s : State, s.live = true →
        ∃ t : State, exec .achain s = .next t
          ∧ WritesAccumulator s t s.accH (fmulValue (s.accS ^^^ le128 s.din) s.accH) true s.dout)
    ∧ (∀ s : State, s.live = false → exec .achain s = .refused .noLiveAccumulator)
    ∧ ∀ s : State, exec .achain s = exec .ainput s

/-- R73: `S` as it stood before, then erasure; the value cannot be read twice; straight after `ANEW` it is the zero
block. -/
def Obligations.AresultReturnsAndErases : Prop :=
  decode 0xE000#16 = some .aresult
    ∧ (∀ s : State, s.live = true →
        ∃ t : State, exec .aresult s = .next t ∧ WritesAccumulator s t 0#128 0#128 false (some (bytes s.accS))
          ∧ exec .aresult t = .refused .noLiveAccumulator)
    ∧ (∀ s : State, s.live = false → exec .aresult s = .refused .noLiveAccumulator)
    ∧ ∀ s t : State, exec .anew s = .next t →
        ∃ u : State, exec .aresult t = .next u ∧ u.dout = some (Vector.replicate 16 0#8)

/-- R74: the lifecycle table, every command and the reset event. The commands of the `V` file are legal in both states
and do not change `LIVE`. -/
def Obligations.LifecycleTable : Prop :=
  (∀ s : State, ∃ t : State, exec .anew s = .next t ∧ t.live = true ∧ t.accS = 0#128 ∧ t.accH = le128 s.din)
    ∧ (∀ (i : Instr) (s : State), i = .ainput ∨ i = .achain ∨ i = .aresult → s.live = false →
        exec i s = .refused .noLiveAccumulator)
    ∧ (∀ (i : Instr) (s : State), i = .ainput ∨ i = .achain → s.live = true →
        ∃ t : State, exec i s = .next t ∧ t.live = true)
    ∧ (∀ s : State, s.live = true → ∃ t : State, exec .aresult s = .next t ∧ t.live = false)
    ∧ (∀ (i : Instr) (s t : State), ¬ isAccumulatorCommand i → exec i s = .next t →
        t.live = s.live ∧ ∀ alive : Bool, ∃ u : State, exec i { s with live := alive } = .next u ∧ u.live = alive)
    ∧ ∀ (s t : State) (rest : List HostEvent), s.pending = .reset :: rest → step s = .next t → t.live = false

/-- R75: a whole hash, from any state of a well-formed core, by any mixture of `AINPUT` and `ACHAIN`, returns the
Horner polynomial of its blocks. -/
def Obligations.HashIsTheHornerPolynomial : Prop :=
  ∀ (s : State) (h d : Block) (xs : List (Bool × Block)), s.cfg.wellFormed = true →
    ∃ t : State, runSteps (xs.length + 2) (presenting s (hashEvents h xs d)) = .next t
      ∧ t.dout = some (bytes (hornerSum (le128 h) (xs.map fun x => le128 x.2)))
      ∧ t.accH = 0#128 ∧ t.accS = 0#128 ∧ t.live = false ∧ SameV s t

/-- R79: the block returned is a function of the `ANEW` block and the sequence of input blocks alone: not of the
backend, the `V` registers, an earlier accumulator, or which of the two input commands folded each block. With the zero
key it is the zero block. -/
def Obligations.HashDependsOnKeyAndBlocksOnly : Prop :=
  ∀ (s s' : State) (h d d' : Block) (xs xs' : List (Bool × Block)),
    s.cfg.wellFormed = true → s'.cfg.wellFormed = true → xs.map Prod.snd = xs'.map Prod.snd →
    ∃ t t' : State, runSteps (xs.length + 2) (presenting s (hashEvents h xs d)) = .next t
      ∧ runSteps (xs'.length + 2) (presenting s' (hashEvents h xs' d')) = .next t'
      ∧ t.dout = t'.dout ∧ (h = Vector.replicate 16 0#8 → t.dout = some (Vector.replicate 16 0#8))

/-- R78: the two orders of two blocks differ by `(b1 xor b2) * H * (H xor MASK)`, and so agree exactly when the blocks
are equal or `H` is 0 or `MASK`. -/
def Obligations.BlockOrderIdentity : Prop :=
  ∀ (s : State) (h b1 b2 d : Block), s.cfg.wellFormed = true →
    ∃ t t' : State, ∃ r r' : Block,
      runSteps 4 (presenting s (hashEvents h [(false, b1), (false, b2)] d)) = .next t
        ∧ runSteps 4 (presenting s (hashEvents h [(false, b2), (false, b1)] d)) = .next t'
        ∧ t.dout = some r ∧ t'.dout = some r'
        ∧ le128 r ^^^ le128 r' = fmul (fmul (le128 b1 ^^^ le128 b2) (le128 h)) (le128 h ^^^ mask)
        ∧ (r = r' ↔ b1 = b2 ∨ le128 h = 0#128 ∨ le128 h = mask)

/-! ### Frames and stops of all commands -/

/-- R83, R40: a command refuses where it needs a live accumulator and there is none; else it faults on its first source
that was never written; else it completes. -/
def Obligations.OutcomeOfEveryCommand : Prop :=
  ∀ (i : Instr) (s : State),
    (needsLive i = true → s.live = false → exec i s = .refused .noLiveAccumulator)
      ∧ (needsLive i = false ∨ s.live = true →
          (∀ r, (sources i).find? (fun r => !s.isWritten r) = some r → exec i s = .fault (.unwrittenRegister r))
            ∧ ((sources i).find? (fun r => !s.isWritten r) = none → ∃ t : State, exec i s = .next t))

/-- R20: a command changes exactly the registers its rule names: its destination if it has one; `H`, `S` and `LIVE`
only if it is one of the four accumulator commands, and `H` only if it is `ANEW` or `ARESULT`; data-out only if it is
`STBLK` or `ARESULT`. -/
def Obligations.CommandsWriteOnlyWhatTheyName : Prop :=
  ∀ (i : Instr) (s t : State), exec i s = .next t →
    (∀ j : VIdx, destination i ≠ some j → t.vreg j = s.vreg j ∧ t.isWritten j = s.isWritten j)
      ∧ (¬ isAccumulatorCommand i → t.accS = s.accS ∧ t.live = s.live)
      ∧ (i ≠ .anew → i ≠ .aresult → t.accH = s.accH ∧ t.live = s.live)
      ∧ (i.opcode ≠ .stblk → i ≠ .aresult → t.dout = s.dout)
      ∧ t.cfg = s.cfg ∧ t.din = s.din ∧ t.pending = s.pending

/-- R40: no command of the `V` file reads or writes `H`, `S` or `LIVE`: with any other accumulator it does the same and
leaves that accumulator as it is. -/
def Obligations.RegisterCommandsIgnoreTheAccumulator : Prop :=
  ∀ (i : Instr) (s : State) (h acc : Word) (alive : Bool), ¬ isAccumulatorCommand i →
    exec i { s with accH := h, accS := acc, live := alive }
      = mapNext (fun t => { t with accH := h, accS := acc, live := alive }) (exec i s)

/-- 43_accumulator.md: none of the four commands reads or writes a `V` register (R11's last row). -/
def Obligations.AccumulatorCommandsIgnoreTheVFile : Prop :=
  ∀ (i : Instr) (s : State) (v : Vector Word 8) (written : Vector Bool 8), isAccumulatorCommand i →
    exec i { s with v := v, written := written } = mapNext (fun t => { t with v := v, written := written }) (exec i s)

/-- R12, R13, R86: no command returns `H`. Two states that differ in `H` give the same stop or the same next state but
for `H` and `S`; and unless the command is `ARESULT` the same holds of two states that differ in `H` and `S`. -/
def Obligations.NoCommandReturnsTheKey : Prop :=
  ∀ (i : Instr) (s : State) (h acc : Word),
    mapNext (fun t => { t with accH := 0#128, accS := 0#128 }) (exec i { s with accH := h })
        = mapNext (fun t => { t with accH := 0#128, accS := 0#128 }) (exec i s)
      ∧ (i ≠ .aresult →
          mapNext (fun t => { t with accH := 0#128, accS := 0#128 }) (exec i { s with accH := h, accS := acc })
            = mapNext (fun t => { t with accH := 0#128, accS := 0#128 }) (exec i s))

/-- R14 ("when `LIVE = 0`, `H` and `S` are zero") kept by every step from every consistent state. That an unwritten
register holds zero is the model's own part of it (notes/assumptions/2.md). -/
def Obligations.StepKeepsConsistency : Prop :=
  ∀ s t : State, s.consistent = true → step s = .next t → t.consistent = true

/-- The state after reset is consistent, whatever the configuration: `LIVE`, `H` and `S` are zero (R19). That the
registers, none of which was written, hold zero, which `State.consistent` also says, is the model's choice
(notes/assumptions/2.md). -/
def Obligations.ResetIsConsistent : Prop := ∀ c : Config, (State.resetWith c).consistent = true

/-- R91, R94: what the host presents runs to its end without a fault or a refusal exactly when the host keeps its
duties, a check that executes nothing. That a state with an ill-formed configuration has a refusal for its step, and that
a core with nothing presented idles in a step of its own, are the model's choices (notes/assumptions/3.md, 5.md). -/
def Obligations.DutiesDecideCompletion : Prop :=
  ∀ s : State, (∃ t : State, runSteps (s.pending.length + 1) s = .next t) ↔ s.safe = true

/-- R87: a step of one core, however it ends, has no effect on another. In a system of a well-formed common
configuration every core can take a step, and the system goes on; core `k` becomes its own outcome (the state after the
step, or the mark of R85, which then stays), which depends on core `k` alone; every other core is as it was; and steps of
two cores commute. A system held as a list of cores is the model's choice (notes/assumptions/11.md). -/
def Obligations.CoresShareNothing : Prop :=
  (∀ (sys : System) (k : Nat) (c : CoreRun), sys.wellFormed = true → sys.cores[k]? = some c →
    ∃ sys' : System, stepCore k sys = some (.next sys') ∧ sys'.cfg = sys.cfg
      ∧ sys'.cores.length = sys.cores.length ∧ (∀ j : Nat, j ≠ k → sys'.cores[j]? = sys.cores[j]?)
      ∧ (∀ s t : State, c = .running s → step s = .next t → sys'.cores[k]? = some (.running t))
      ∧ (∀ (s : State) (f : Fault), c = .running s → step s = .fault f → sys'.cores[k]? = some (.faulted f))
      ∧ (∀ (s : State) (r : Refusal), c = .running s → step s = .refused r → sys'.cores[k]? = some (.refused r))
      ∧ ((∀ s : State, c ≠ .running s) → sys'.cores[k]? = some c))
  ∧ (∀ (sys₁ sys₂ sys₁' sys₂' : System) (k : Nat), sys₁.cores[k]? = sys₂.cores[k]? →
      stepCore k sys₁ = some (.next sys₁') → stepCore k sys₂ = some (.next sys₂') →
      sys₁'.cores[k]? = sys₂'.cores[k]?)
  ∧ ∀ (sys : System) (j k : Nat), j ≠ k → j < sys.cores.length → k < sys.cores.length → sys.wellFormed = true →
      ∃ a b c : System, stepCore j sys = some (.next a) ∧ stepCore k a = some (.next c)
        ∧ stepCore k sys = some (.next b) ∧ stepCore j b = some (.next c)

/-! ### The backends -/

/-- R53: the loop of R52 computes the carry-less product, and the two backends' partial multiplies agree on all register
values and selectors. -/
def Obligations.SerialLoopComputesClmul64 : Prop :=
  (∀ x y : Lane, serialMultiply x y = clmul64 x y)
    ∧ ∀ (a b : Word) (sel : Selector),
        (capabilityOf .clmul).pmul sel a b = (capabilityOf .bitserial).pmul sel a b

/-- R52: the bit dropped from `acc0` at each of the 64 passes is 0, so nothing is lost. -/
def Obligations.SerialLoopDropsOnlyZeros : Prop :=
  ∀ (x y : Lane) (n : Nat), n < 64 → (serialLoop x y n).2.getLsbD 0 = false

/-- R49, R53: each backend's operations have the values of R44 to R47 and R50. -/
def Obligations.BackendsMeetTheContract : Prop :=
  ∀ b : Backend,
    (∀ x y : Word, (capabilityOf b).xor x y = x ^^^ y)
      ∧ (∀ x : Word, (capabilityOf b).swap x = lo x ++ hi x)
      ∧ (∀ x : Word, (capabilityOf b).mvlh x = lo x ++ 0#64)
      ∧ (∀ x : Word, (capabilityOf b).mvhl x = 0#64 ++ hi x)
      ∧ ∀ x y : Word, (capabilityOf b).pmul .ll x y = clmul64 (lo x) (lo y)
        ∧ (capabilityOf b).pmul .hl x y = clmul64 (hi x) (lo y)
        ∧ (capabilityOf b).pmul .lh x y = clmul64 (lo x) (hi y)
        ∧ (capabilityOf b).pmul .hh x y = clmul64 (hi x) (hi y)

/-- R8: the backends are drop-in substitutable: under another well-formed configuration a step has the same outcome in
every bit. -/
def Obligations.BackendChangesNoValue : Prop :=
  ∀ (s : State) (c : Config), s.cfg.wellFormed = true → c.wellFormed = true →
    step (withConfig s c) = mapNext (fun t => withConfig t c) (step s)

/-! ### The carry-less product -/

/-- R9: bit `k` is the XOR over all `i + j = k` of `x[i] AND y[j]`, and bit 127 is always 0. -/
def Obligations.ClmulBits : Prop :=
  ∀ x y : Lane,
    (∀ k : Nat, (clmul64 x y).getLsbD k
      = (List.range 64).foldl (fun acc j => acc ^^ (y.getLsbD j && decide (j ≤ k) && x.getLsbD (k - j))) false)
    ∧ (clmul64 x y).getLsbD 127 = false

/-- R9: the product of two polynomials over the two-element field, exact. -/
def Obligations.ClmulIsThePolynomialProduct : Prop :=
  ∀ x y : Lane, toPoly (clmul64 x y) = toPoly x * toPoly y

/-- R54, but for its last row. -/
def Obligations.PartialMultiplyLaws : Prop :=
  (∀ x y : Lane, clmul64 x y = clmul64 y x)
    ∧ (∀ a b : Word, contract.pmul .ll a b = contract.pmul .ll b a ∧ contract.pmul .hh a b = contract.pmul .hh b a
        ∧ contract.pmul .hl a b = contract.pmul .lh b a)
    ∧ (∀ (x : Lane) (k : Fin 64), clmul64 x (1#64 <<< k.val) = x.setWidth 128 <<< k.val)
    ∧ (∀ (sel : Selector) (a b c : Word),
        contract.pmul sel (a ^^^ c) b = contract.pmul sel a b ^^^ contract.pmul sel c b
          ∧ contract.pmul sel a (b ^^^ c) = contract.pmul sel a b ^^^ contract.pmul sel a c
          ∧ (contract.pmul sel a b).toNat < 2 ^ 127)
    ∧ (∀ x y : Lane, clmul64 x y = 0#128 → x = 0#64 ∨ y = 0#64)
    ∧ ∀ x y : Lane, x ≠ 0#64 → y ≠ 0#64 →
        (toPoly (clmul64 x y)).natDegree = (toPoly x).natDegree + (toPoly y).natDegree

/-- R54's last row: the four lane products make the full 256-bit product, whose halves are `low256` and `high256`
(R60). -/
def Obligations.FourProductsMakeTheProduct : Prop :=
  ∀ a b : Word,
    toPoly ((contract.pmul .ll a b).setWidth 256
        ^^^ ((contract.pmul .hl a b ^^^ contract.pmul .lh a b).setWidth 256 <<< 64)
        ^^^ ((contract.pmul .hh a b).setWidth 256 <<< 128)) = toPoly a * toPoly b
    ∧ toPoly (productHigh contract a b ++ productLow contract a b) = toPoly a * toPoly b

/-! ### What the field layer computes -/

/-- R63: `fmul(a, b)` is the one register value congruent to `a * b * x^-128` modulo `P`, and `reduce(v)` the one
congruent to `v * x^-128`. -/
def Obligations.FmulIsTheMontgomeryProduct : Prop :=
  (∀ a b r : Word, fieldPoly ∣ toPoly r * Polynomial.X ^ 128 - toPoly a * toPoly b ↔ r = fmul a b)
    ∧ (∀ v r : Word, fieldPoly ∣ toPoly r * Polynomial.X ^ 128 - toPoly v ↔ r = reduce v)
    ∧ fmul 1#128 1#128 = 0x92040000000000000000000000000001#128

/-- R64: the identity is `MASK`, and 1 is not: `fmul(1, a) = reduce(a)`, which differs from `a` unless `a` is 0. -/
def Obligations.MaskIsTheIdentity : Prop :=
  (∀ a : Word, fmul 0xC2000000000000000000000000000001#128 a = a ∧ fmul a 0xC2000000000000000000000000000001#128 = a
      ∧ fmul 1#128 a = reduce a ∧ (a ≠ 0#128 → fmul 1#128 a ≠ a))
    ∧ bytes 0xC2000000000000000000000000000001#128 = #v[0x01, 0, 0, 0, 0, 0, 0, 0, 0, 0, 0, 0, 0, 0, 0, 0xC2]

/-- R66, the rows that hold in the quotient ring for any `P`. -/
def Obligations.FieldLaws : Prop :=
  ∀ a b c : Word,
    fmul a b = fmul b a ∧ fmul (fmul a b) c = fmul a (fmul b c) ∧ fmul (a ^^^ b) c = fmul a c ^^^ fmul b c
      ∧ fmul a 0#128 = 0#128 ∧ fmul a mask = a ∧ reduce (a ^^^ b) = reduce a ^^^ reduce b ∧ reduce a = fmul a 1#128

/-- R66, the rows that need `P` irreducible: no zero divisors, and exactly one inverse of every element but 0. -/
def Obligations.FieldHasInverses : Prop :=
  (∀ a b : Word, fmul a b = 0#128 → a = 0#128 ∨ b = 0#128)
    ∧ ∀ a : Word, a ≠ 0#128 → ∃ b : Word, fmul a b = mask ∧ ∀ b' : Word, fmul a b' = mask → b' = b

/-- R67: the seventeen commands leave in `V2` what `FMUL` writes, from any state of a well-formed core in which `V0` and
`V1` were written, and write `V2` to `V6` and no other register. -/
def Obligations.FmulEqualsItsExpansion : Prop :=
  ∀ (s : State) (d : Block) (rest : List HostEvent), s.cfg.wellFormed = true → s.isWritten 0 = true →
    s.isWritten 1 = true →
    ∃ t : State, runSteps 17 (presenting s (expansion d ++ rest)) = .next t ∧ t.pending = rest
      ∧ (∀ j : VIdx, j = 0 ∨ j = 1 ∨ j = 7 → t.vreg j = s.vreg j ∧ t.isWritten j = s.isWritten j)
      ∧ (∀ j : VIdx, j ≠ 0 → j ≠ 1 → j ≠ 7 → t.isWritten j = true)
      ∧ t.accH = s.accH ∧ t.accS = s.accS ∧ t.live = s.live ∧ t.cfg = s.cfg
      ∧ ∀ (u : State) (rd ra rb : VIdx), u.isWritten ra = true → u.isWritten rb = true →
          u.vreg ra = s.vreg 0 → u.vreg rb = s.vreg 1 →
          ∃ u' : State, exec (.fmul rd ra rb) u = .next u' ∧ u'.vreg rd = t.vreg 2

/-! ### One configuration for all cores -/

/-- R87, R7: any number of cores exist under one configuration, well formed and common to them. Power-on makes such a
system or is refused; constructing one more core keeps it so; and so does every step of a core, since nothing changes the
configuration. That a system held with cores of different configurations has `BadConfiguration` for its step is the
model's choice (notes/assumptions/11.md). -/
def Obligations.CoresHaveOneConfiguration : Prop :=
  (∀ (choice : Option Backend) (hasClmul : Bool) (n : Nat),
    ((Config.select choice hasClmul).wellFormed = true →
        ∃ sys : System, systemPowerOn choice hasClmul n = .next sys ∧ sys.wellFormed = true
          ∧ sys.cfg = Config.select choice hasClmul ∧ sys.cores.length = n
          ∧ ∀ k : Nat, k < n → ∃ s : State, sys.cores[k]? = some (.running s) ∧ powerOn choice hasClmul = .next s)
      ∧ ((Config.select choice hasClmul).wellFormed = false →
          systemPowerOn choice hasClmul n = .refused .badConfiguration))
  ∧ (∀ sys : System, sys.wellFormed = true → sys.addCore.wellFormed = true ∧ sys.addCore.cfg = sys.cfg
      ∧ sys.addCore.cores[sys.cores.length]? = some (.running (State.resetWith sys.cfg))
      ∧ ∀ j : Nat, j < sys.cores.length → sys.addCore.cores[j]? = sys.cores[j]?)
  ∧ (∀ (sys sys' : System) (k : Nat), stepCore k sys = some (.next sys') →
      sys.wellFormed = true ∧ sys'.wellFormed = true ∧ sys'.cfg = sys.cfg)
  ∧ ∀ (sys : System) (k : Nat) (s : State), sys.cores[k]? = some (.running s) → s.cfg ≠ sys.cfg →
      ∀ j : Nat, stepCore j sys = some (.refused .badConfiguration)
end

