-- ==== Sys2Proof/Laws/Values.lean ====
section
/-! SUPPORT. Lanes and blocks: the small lemmas of `lo`, `hi`, `ofLanes`, `le128` and `bytes` (00_scope.md R2, R4). -/

namespace Sys2Proof.Machine

/-! ### Lanes -/

theorem getLsbD_lo (v : Word) (i : Nat) : (lo v).getLsbD i = (decide (i < 64) && v.getLsbD i) := by
  simp [lo]

theorem getLsbD_hi (v : Word) (i : Nat) : (hi v).getLsbD i = (decide (i < 64) && v.getLsbD (64 + i)) := by
  simp [hi]

theorem getLsbD_ofLanes (h l : Lane) (i : Nat) :
    (ofLanes h l).getLsbD i = if i < 64 then l.getLsbD i else h.getLsbD (i - 64) :=
  BitVec.getLsbD_append

@[simp] theorem lo_ofLanes (h l : Lane) : lo (ofLanes h l) = l := by
  apply BitVec.eq_of_getLsbD_eq
  intro i hi
  rw [getLsbD_lo, getLsbD_ofLanes, if_pos hi, decide_eq_true hi, Bool.true_and]

@[simp] theorem hi_ofLanes (h l : Lane) : hi (ofLanes h l) = h := by
  apply BitVec.eq_of_getLsbD_eq
  intro i hi
  rw [getLsbD_hi, getLsbD_ofLanes, if_neg (by omega), decide_eq_true hi, Bool.true_and, Nat.add_sub_cancel_left]

@[simp] theorem ofLanes_hi_lo (v : Word) : ofLanes (hi v) (lo v) = v := by
  apply BitVec.eq_of_getLsbD_eq
  intro i h
  rw [getLsbD_ofLanes]
  split
  · rw [getLsbD_lo, decide_eq_true ‹_›, Bool.true_and]
  · rw [getLsbD_hi, decide_eq_true (by omega), Bool.true_and, show 64 + (i - 64) = i by omega]

@[simp] theorem lo_xor (a b : Word) : lo (a ^^^ b) = lo a ^^^ lo b := by
  apply BitVec.eq_of_getLsbD_eq
  intro i h
  rw [BitVec.getLsbD_xor, getLsbD_lo, getLsbD_lo, getLsbD_lo, BitVec.getLsbD_xor, decide_eq_true h]
  simp only [Bool.true_and]

@[simp] theorem hi_xor (a b : Word) : hi (a ^^^ b) = hi a ^^^ hi b := by
  apply BitVec.eq_of_getLsbD_eq
  intro i h
  rw [BitVec.getLsbD_xor, getLsbD_hi, getLsbD_hi, getLsbD_hi, BitVec.getLsbD_xor, decide_eq_true h]
  simp only [Bool.true_and]

/-! ### Blocks -/

/-- Bit `i` of the first `n` bytes' integer is bit `i mod 8` of byte `i / 8`. -/
theorem getLsbD_leBytes (b : Block) (n i : Nat) (hn : n ≤ 16) :
    (leBytes b n).getLsbD i = (decide (i < 8 * n) && (byteAt b (i / 8)).getLsbD (i % 8)) := by
  induction n with
  | zero => simp [leBytes]
  | succ n ih =>
    have hb : ∀ j, 8 ≤ j → (byteAt b n).getLsbD j = false := fun j hj => BitVec.getLsbD_of_ge _ _ hj
    rw [leBytes, BitVec.getLsbD_or, ih (by omega), BitVec.getLsbD_shiftLeft, BitVec.getLsbD_setWidth]
    by_cases h1 : i < 8 * n
    · simp [h1, show i < 8 * (n + 1) by omega]
    · by_cases h2 : i < 8 * (n + 1)
      · have hq : i / 8 = n := by omega
        have hr : i - 8 * n = i % 8 := by omega
        simp [h1, h2, hq, hr, show i < 128 by omega, show i % 8 < 128 by omega]
      · simp [h1, h2, hb (i - 8 * n) (by omega)]

theorem getLsbD_le128 (b : Block) (i : Nat) :
    (le128 b).getLsbD i = (decide (i < 128) && (byteAt b (i / 8)).getLsbD (i % 8)) := by
  simp [le128, getLsbD_leBytes]

theorem getElem_bytes (v : Word) (k : Nat) (h : k < 16) : (bytes v)[k] = v.extractLsb' (8 * k) 8 := by
  simp [bytes]

theorem byteAt_bytes (v : Word) (k : Nat) (h : k < 16) : byteAt (bytes v) k = v.extractLsb' (8 * k) 8 := by
  simp [byteAt, h, getElem_bytes]

theorem byteAt_eq_getElem (b : Block) (k : Nat) (h : k < 16) : byteAt b k = b[k] := by
  simp [byteAt, h]

theorem le128_bytes (v : Word) : le128 (bytes v) = v := by
  apply BitVec.eq_of_getLsbD_eq
  intro i h
  rw [getLsbD_le128, byteAt_bytes _ _ (by omega), BitVec.getLsbD_extractLsb', Nat.div_add_mod]
  simp [h, Nat.mod_lt]

theorem extract_le128 (b : Block) (k : Nat) (h : k < 16) : (le128 b).extractLsb' (8 * k) 8 = b[k] := by
  apply BitVec.eq_of_getLsbD_eq
  intro i hi
  rw [BitVec.getLsbD_extractLsb', getLsbD_le128, show (8 * k + i) / 8 = k by omega, show (8 * k + i) % 8 = i by omega,
    byteAt_eq_getElem _ _ h]
  simp [hi, show 8 * k + i < 128 by omega]

theorem bytes_le128 (b : Block) : bytes (le128 b) = b := by
  apply Vector.ext
  intro k h
  rw [getElem_bytes _ _ h, extract_le128 _ _ h]

end Sys2Proof.Machine
end

