-- ==== Sys2Proof/Laws/Algebra.lean ====
section
/-! SUPPORT. The small lemmas of `toPoly` (00_scope.md R5): its coefficients, and what it makes of XOR, widening, shifts
and lanes. -/

namespace Sys2Proof

open Polynomial

theorem toPoly_coeff {w : Nat} (v : BitVec w) (k : Nat) : (toPoly v).coeff k = if v.getLsbD k then 1 else 0 := by
  have h : ∀ i, (if v.getLsbD i then (X : (ZMod 2)[X]) ^ i else 0).coeff k
      = if k = i then (if v.getLsbD i then 1 else 0) else 0 := by
    intro i
    split <;> simp [coeff_X_pow]
  rw [toPoly, finsetSum_coeff, Finset.sum_congr rfl fun i _ => h i, Finset.sum_ite_eq]
  by_cases hk : k < w
  · simp [hk]
  · simp [hk, BitVec.getLsbD_of_ge v k (by omega)]

theorem toPoly_injective {w : Nat} {u v : BitVec w} (h : toPoly u = toPoly v) : u = v := by
  apply BitVec.eq_of_getLsbD_eq
  intro i _
  have hc := congrArg (fun p => p.coeff i) h
  simp only [toPoly_coeff] at hc
  by_cases hu : u.getLsbD i <;> by_cases hv : v.getLsbD i <;> simp_all

theorem toPoly_zero {w : Nat} : toPoly (0#w) = 0 := by
  ext k
  simp [toPoly_coeff]

theorem toPoly_xor {w : Nat} (u v : BitVec w) : toPoly (u ^^^ v) = toPoly u + toPoly v := by
  ext k
  rw [coeff_add, toPoly_coeff, toPoly_coeff, toPoly_coeff, BitVec.getLsbD_xor]
  cases u.getLsbD k <;> cases v.getLsbD k <;> decide

theorem toPoly_setWidth {w n : Nat} (v : BitVec w) (h : w ≤ n) : toPoly (v.setWidth n) = toPoly v := by
  ext k
  rw [toPoly_coeff, toPoly_coeff, BitVec.getLsbD_setWidth]
  by_cases hk : k < n
  · simp [hk]
  · simp [hk, BitVec.getLsbD_of_ge v k (by omega)]

/-- A shift that loses no set bit multiplies by a power of x. -/
theorem toPoly_shiftLeft {w : Nat} (v : BitVec w) (n : Nat) (h : ∀ k, w ≤ k + n → v.getLsbD k = false) :
    toPoly (v <<< n) = toPoly v * X ^ n := by
  ext k
  rw [toPoly_coeff, BitVec.getLsbD_shiftLeft, coeff_mul_X_pow', toPoly_coeff]
  by_cases hk : n ≤ k
  · by_cases hw : k < w
    · simp [hk, hw, Nat.not_lt.mpr hk]
    · simp [hk, hw, h (k - n) (by omega)]
  · simp [hk, Nat.lt_of_not_le hk]

theorem toPoly_ofLanes (h l : Lane) : toPoly (Machine.ofLanes h l) = toPoly l + toPoly h * X ^ 64 := by
  ext k
  rw [coeff_add, coeff_mul_X_pow', toPoly_coeff, toPoly_coeff, toPoly_coeff, Machine.getLsbD_ofLanes]
  by_cases hk : k < 64
  · simp [hk, Nat.not_le.mpr hk]
  · simp [hk, Nat.le_of_not_lt hk]

/-- A register value is its low lane plus its high lane times x^64. -/
theorem toPoly_lanes (v : Word) : toPoly v = toPoly (Machine.lo v) + toPoly (Machine.hi v) * X ^ 64 := by
  rw [← toPoly_ofLanes, Machine.ofLanes_hi_lo]

theorem toPoly_degree_lt {w : Nat} (v : BitVec w) : (toPoly v).degree < w := by
  rw [degree_lt_iff_coeff_zero]
  intro k hk
  simp [toPoly_coeff, BitVec.getLsbD_of_ge v k hk]

end Sys2Proof
end

