-- ==== Sys2Proof/Laws/Backends.lean ====
section
/-! SUPPORT. Bits of the carry-less product (00_scope.md R9) and of one pass of the bit-serial loop (41_clmul_unit.md
R52). -/

namespace Sys2Proof.Machine

/-- The terms of the first `n` bits of `y` reach no bit from `63 + n` on. -/
theorem clmulTerms_high (x y : Lane) (n k : Nat) (h : 63 + n ≤ k) : (clmulTerms x y n).getLsbD k = false := by
  induction n with
  | zero => simp [clmulTerms]
  | succ n ih =>
    rw [clmulTerms, BitVec.getLsbD_xor, ih (by omega)]
    split
    · rw [BitVec.getLsbD_shiftLeft, BitVec.getLsbD_setWidth, BitVec.getLsbD_of_ge x _ (by omega)]; simp
    · simp

/-- Bit `k` of one term of R9. -/
theorem getLsbD_term (x : Lane) (b : Bool) (n k : Nat) (hk : k < 128) :
    (if b then x.setWidth 128 <<< n else 0#128).getLsbD k = (decide (n ≤ k) && (b && x.getLsbD (k - n))) := by
  cases b with
  | false => simp
  | true =>
    rw [if_pos rfl, BitVec.getLsbD_shiftLeft, BitVec.getLsbD_setWidth, decide_eq_true hk,
      decide_eq_true (show k - n < 128 by omega)]
    by_cases h : n ≤ k
    · simp [h, Nat.not_lt.mpr h]
    · simp [h, Nat.lt_of_not_le h]

/-- The high lane after a pass: shifted right, `x` having been XORed in where the bit is set. -/
theorem serialPass_high (x : Lane) (b : Bool) (acc : Lane × Lane) (k : Nat) :
    (serialPass x b acc).1.getLsbD k = (acc.1.getLsbD (1 + k) ^^ (b && x.getLsbD (1 + k))) := by
  cases b <;> simp [serialPass, BitVec.getLsbD_ushiftRight]

/-- The low lane after a pass: its top bit is the one the high lane lost. -/
theorem serialPass_low (x : Lane) (b : Bool) (acc : Lane × Lane) (k : Nat) (hk : k < 64) :
    (serialPass x b acc).2.getLsbD k
      = if k = 63 then (acc.1.getLsbD 0 ^^ (b && x.getLsbD 0)) else acc.2.getLsbD (1 + k) := by
  have top : ∀ c : Bool, (if c then 1#64 <<< 63 else 0#64).getLsbD k = (c && decide (k = 63)) := by
    intro c
    cases c with
    | false => simp
    | true => revert k; decide
  have he : (if b then acc.1 ^^^ x else acc.1).getLsbD 0 = (acc.1.getLsbD 0 ^^ (b && x.getLsbD 0)) := by
    cases b <;> simp
  show (acc.2 >>> 1 ||| _).getLsbD k = _
  rw [BitVec.getLsbD_or, BitVec.getLsbD_ushiftRight]
  simp only [he, top]
  by_cases h : k = 63
  · subst h
    rw [BitVec.getLsbD_of_ge acc.2 _ (by omega)]
    simp
  · simp [h]

end Sys2Proof.Machine
end

