-- ==== Sys2Proof/Laws/State.lean ====
section
/-! SUPPORT. One lemma per field of `State` per update, true by `rfl`, so that no later proof unfolds a record update. -/

namespace Sys2Proof.Machine

/-! ### `writeV` -/

@[simp] theorem writeV_cfg (s : State) (i : VIdx) (x : Word) : (s.writeV i x).cfg = s.cfg := rfl

@[simp] theorem writeV_accH (s : State) (i : VIdx) (x : Word) : (s.writeV i x).accH = s.accH := rfl

@[simp] theorem writeV_accS (s : State) (i : VIdx) (x : Word) : (s.writeV i x).accS = s.accS := rfl

@[simp] theorem writeV_live (s : State) (i : VIdx) (x : Word) : (s.writeV i x).live = s.live := rfl

@[simp] theorem writeV_din (s : State) (i : VIdx) (x : Word) : (s.writeV i x).din = s.din := rfl

@[simp] theorem writeV_dout (s : State) (i : VIdx) (x : Word) : (s.writeV i x).dout = s.dout := rfl

@[simp] theorem writeV_pending (s : State) (i : VIdx) (x : Word) : (s.writeV i x).pending = s.pending := rfl

/-! ### `returnBlock` -/

@[simp] theorem returnBlock_cfg (s : State) (b : Block) : (s.returnBlock b).cfg = s.cfg := rfl

@[simp] theorem returnBlock_accH (s : State) (b : Block) : (s.returnBlock b).accH = s.accH := rfl

@[simp] theorem returnBlock_accS (s : State) (b : Block) : (s.returnBlock b).accS = s.accS := rfl

@[simp] theorem returnBlock_live (s : State) (b : Block) : (s.returnBlock b).live = s.live := rfl

@[simp] theorem returnBlock_din (s : State) (b : Block) : (s.returnBlock b).din = s.din := rfl

@[simp] theorem returnBlock_dout (s : State) (b : Block) : (s.returnBlock b).dout = some b := rfl

@[simp] theorem returnBlock_pending (s : State) (b : Block) : (s.returnBlock b).pending = s.pending := rfl

@[simp] theorem returnBlock_vreg (s : State) (b : Block) (j : VIdx) : (s.returnBlock b).vreg j = s.vreg j := rfl

@[simp] theorem returnBlock_isWritten (s : State) (b : Block) (j : VIdx) : (s.returnBlock b).isWritten j = s.isWritten j := rfl

/-! ### `setAccumulator` -/

@[simp] theorem setAccumulator_cfg (s : State) (h acc : Word) (alive : Bool) : (s.setAccumulator h acc alive).cfg = s.cfg := rfl

@[simp] theorem setAccumulator_accH (s : State) (h acc : Word) (alive : Bool) : (s.setAccumulator h acc alive).accH = h := rfl

@[simp] theorem setAccumulator_accS (s : State) (h acc : Word) (alive : Bool) : (s.setAccumulator h acc alive).accS = acc := rfl

@[simp] theorem setAccumulator_live (s : State) (h acc : Word) (alive : Bool) : (s.setAccumulator h acc alive).live = alive := rfl

@[simp] theorem setAccumulator_din (s : State) (h acc : Word) (alive : Bool) : (s.setAccumulator h acc alive).din = s.din := rfl

@[simp] theorem setAccumulator_dout (s : State) (h acc : Word) (alive : Bool) : (s.setAccumulator h acc alive).dout = s.dout := rfl

@[simp] theorem setAccumulator_pending (s : State) (h acc : Word) (alive : Bool) : (s.setAccumulator h acc alive).pending = s.pending := rfl

@[simp] theorem setAccumulator_vreg (s : State) (h acc : Word) (alive : Bool) (j : VIdx) : (s.setAccumulator h acc alive).vreg j = s.vreg j := rfl

@[simp] theorem setAccumulator_isWritten (s : State) (h acc : Word) (alive : Bool) (j : VIdx) : (s.setAccumulator h acc alive).isWritten j = s.isWritten j := rfl

/-! ### `takeCommand` -/

@[simp] theorem takeCommand_cfg (s : State) (din : Block) (rest : List HostEvent) : (s.takeCommand din rest).cfg = s.cfg := rfl

@[simp] theorem takeCommand_accH (s : State) (din : Block) (rest : List HostEvent) : (s.takeCommand din rest).accH = s.accH := rfl

@[simp] theorem takeCommand_accS (s : State) (din : Block) (rest : List HostEvent) : (s.takeCommand din rest).accS = s.accS := rfl

@[simp] theorem takeCommand_live (s : State) (din : Block) (rest : List HostEvent) : (s.takeCommand din rest).live = s.live := rfl

@[simp] theorem takeCommand_din (s : State) (din : Block) (rest : List HostEvent) : (s.takeCommand din rest).din = din := rfl

@[simp] theorem takeCommand_dout (s : State) (din : Block) (rest : List HostEvent) : (s.takeCommand din rest).dout = none := rfl

@[simp] theorem takeCommand_pending (s : State) (din : Block) (rest : List HostEvent) : (s.takeCommand din rest).pending = rest := rfl

@[simp] theorem takeCommand_vreg (s : State) (din : Block) (rest : List HostEvent) (j : VIdx) : (s.takeCommand din rest).vreg j = s.vreg j := rfl

@[simp] theorem takeCommand_isWritten (s : State) (din : Block) (rest : List HostEvent) (j : VIdx) : (s.takeCommand din rest).isWritten j = s.isWritten j := rfl

/-! ### `hostReset` -/

@[simp] theorem hostReset_cfg (s : State) (rest : List HostEvent) : (s.hostReset rest).cfg = s.cfg := rfl

@[simp] theorem hostReset_accH (s : State) (rest : List HostEvent) : (s.hostReset rest).accH = 0#128 := rfl

@[simp] theorem hostReset_accS (s : State) (rest : List HostEvent) : (s.hostReset rest).accS = 0#128 := rfl

@[simp] theorem hostReset_live (s : State) (rest : List HostEvent) : (s.hostReset rest).live = false := rfl

@[simp] theorem hostReset_din (s : State) (rest : List HostEvent) : (s.hostReset rest).din = s.din := rfl

@[simp] theorem hostReset_dout (s : State) (rest : List HostEvent) : (s.hostReset rest).dout = none := rfl

@[simp] theorem hostReset_pending (s : State) (rest : List HostEvent) : (s.hostReset rest).pending = rest := rfl

/-! ### The `V` file after a write and after a reset -/

@[simp] theorem writeV_vreg_same (s : State) (i : VIdx) (x : Word) : (s.writeV i x).vreg i = x := by
  simp [State.vreg, State.writeV]

@[simp] theorem writeV_isWritten_same (s : State) (i : VIdx) (x : Word) : (s.writeV i x).isWritten i = true := by
  simp [State.isWritten, State.writeV]

theorem writeV_vreg_other (s : State) (x : Word) {i j : VIdx} (h : j ≠ i) : (s.writeV i x).vreg j = s.vreg j := by
  have : i.val ≠ j.val := fun e => h (Fin.ext e.symm)
  simp [State.vreg, State.writeV, this]

theorem writeV_isWritten_other (s : State) (x : Word) {i j : VIdx} (h : j ≠ i) :
    (s.writeV i x).isWritten j = s.isWritten j := by
  have : i.val ≠ j.val := fun e => h (Fin.ext e.symm)
  simp [State.isWritten, State.writeV, this]

@[simp] theorem hostReset_vreg (s : State) (rest : List HostEvent) (j : VIdx) : (s.hostReset rest).vreg j = 0#128 := by
  simp [State.vreg, State.hostReset]

@[simp] theorem hostReset_isWritten (s : State) (rest : List HostEvent) (j : VIdx) :
    (s.hostReset rest).isWritten j = false := by
  simp [State.isWritten, State.hostReset]

end Sys2Proof.Machine
end

