-- ==== Sys2Proof/Laws/Ops.lean ====
section
/-! SUPPORT. One lemma per shared operation that says everything it can do, then the inversion of `exec` and of `step`:
provers cite these and unfold nothing. -/

namespace Sys2Proof.Machine

/-! ### Shared operations -/

theorem withSource_written {i : VIdx} {s : State} (k : Word → Result) (h : s.isWritten i = true) :
    withSource i s k = k (s.vreg i) := by
  simp [withSource, h]

theorem withSource_unwritten {i : VIdx} {s : State} (k : Word → Result) (h : s.isWritten i = false) :
    withSource i s k = .fault (.unwrittenRegister i) := by
  simp [withSource, h]

/-- A read answers a next state only where the register was written. -/
theorem withSource_next {i : VIdx} {s t : State} {k : Word → Result} (h : withSource i s k = .next t) :
    s.isWritten i = true ∧ k (s.vreg i) = .next t := by
  unfold withSource at h
  split at h
  · exact ⟨‹_›, h⟩
  · cases h

theorem withLive_next {s t : State} {k : Result} (h : withLive s k = .next t) : s.live = true ∧ k = .next t := by
  unfold withLive at h
  split at h
  · exact ⟨‹_›, h⟩
  · cases h

theorem withLive_live {s : State} (k : Result) (h : s.live = true) : withLive s k = k := by
  simp [withLive, h]

theorem withLive_dead {s : State} (k : Result) (h : s.live = false) : withLive s k = .refused .noLiveAccumulator := by
  simp [withLive, h]

theorem unary_next {f : Word → Word} {rd ra : VIdx} {s t : State} (h : unary f rd ra s = .next t) :
    s.isWritten ra = true ∧ t = s.writeV rd (f (s.vreg ra)) := by
  obtain ⟨hw, h⟩ := withSource_next h
  cases h
  exact ⟨hw, rfl⟩

theorem binary_next {f : Word → Word → Word} {rd ra rb : VIdx} {s t : State} (h : binary f rd ra rb s = .next t) :
    s.isWritten ra = true ∧ s.isWritten rb = true ∧ t = s.writeV rd (f (s.vreg ra) (s.vreg rb)) := by
  obtain ⟨ha, h⟩ := withSource_next h
  obtain ⟨hb, h⟩ := withSource_next h
  cases h
  exact ⟨ha, hb, rfl⟩

/-! ### Each command over its shared operation -/

theorem exec_stblk (ra : VIdx) (s : State) :
    exec (.stblk ra) s = withSource ra s fun a => .next (s.returnBlock (bytes a)) := rfl

theorem exec_vxor (rd ra rb : VIdx) (s : State) : exec (.vxor rd ra rb) s = binary s.capability.xor rd ra rb s := rfl

theorem exec_pmul (rd ra rb : VIdx) (sel : Selector) (s : State) :
    exec (.pmul rd ra rb sel) s = binary (s.capability.pmul sel) rd ra rb s := rfl

theorem exec_swap (rd ra : VIdx) (s : State) : exec (.swap rd ra) s = unary s.capability.swap rd ra s := rfl

theorem exec_mvlh (rd ra : VIdx) (s : State) : exec (.mvlh rd ra) s = unary s.capability.mvlh rd ra s := rfl

theorem exec_mvhl (rd ra : VIdx) (s : State) : exec (.mvhl rd ra) s = unary s.capability.mvhl rd ra s := rfl

theorem exec_fmul (rd ra rb : VIdx) (s : State) :
    exec (.fmul rd ra rb) s = binary (fieldMul s.capability) rd ra rb s := rfl

theorem exec_fadd (rd ra rb : VIdx) (s : State) : exec (.fadd rd ra rb) s = binary s.capability.xor rd ra rb s := rfl

theorem exec_ainput (s : State) : exec .ainput s = withLive s (.next (s.foldBlock (le128 s.dinBlock))) := rfl

theorem exec_achain (s : State) : exec .achain s = withLive s (.next (s.foldBlock (le128 s.dinBlock))) := rfl

theorem exec_aresult (s : State) :
    exec .aresult s = withLive s (.next ((s.returnBlock (bytes s.accS)).setAccumulator 0#128 0#128 false)) := rfl

/-! ### Inversion -/

/-- Every next state of a command is one of five: one `V` register written, a block returned, or one of the three
changes of the accumulator. -/
theorem exec_next_cases {i : Instr} {s t : State} (h : exec i s = .next t) :
    (∃ rd x, destination i = some rd ∧ t = s.writeV rd x)
      ∨ (∃ ra, i = .stblk ra ∧ s.isWritten ra = true ∧ t = s.returnBlock (bytes (s.vreg ra)))
      ∨ (i = .anew ∧ t = s.setAccumulator (le128 s.dinBlock) 0#128 true)
      ∨ ((i = .ainput ∨ i = .achain) ∧ s.live = true ∧ t = s.foldBlock (le128 s.dinBlock))
      ∨ (i = .aresult ∧ s.live = true ∧ t = (s.returnBlock (bytes s.accS)).setAccumulator 0#128 0#128 false) := by
  cases i with
  | ldblk rd => cases h; exact .inl ⟨rd, _, rfl, rfl⟩
  | ldwide rd => cases h; exact .inl ⟨rd, _, rfl, rfl⟩
  | stblk ra =>
    rw [exec_stblk] at h
    obtain ⟨hw, h⟩ := withSource_next h
    cases h
    exact .inr (.inl ⟨ra, rfl, hw, rfl⟩)
  | vxor rd ra rb => exact .inl ⟨rd, _, rfl, (binary_next h).2.2⟩
  | pmul rd ra rb sel => exact .inl ⟨rd, _, rfl, (binary_next h).2.2⟩
  | fmul rd ra rb => exact .inl ⟨rd, _, rfl, (binary_next h).2.2⟩
  | fadd rd ra rb => exact .inl ⟨rd, _, rfl, (binary_next h).2.2⟩
  | swap rd ra => exact .inl ⟨rd, _, rfl, (unary_next h).2⟩
  | mvlh rd ra => exact .inl ⟨rd, _, rfl, (unary_next h).2⟩
  | mvhl rd ra => exact .inl ⟨rd, _, rfl, (unary_next h).2⟩
  | anew => cases h; exact .inr (.inr (.inl ⟨rfl, rfl⟩))
  | ainput =>
    obtain ⟨hl, h⟩ := withLive_next h
    cases h
    exact .inr (.inr (.inr (.inl ⟨.inl rfl, hl, rfl⟩)))
  | achain =>
    obtain ⟨hl, h⟩ := withLive_next h
    cases h
    exact .inr (.inr (.inr (.inl ⟨.inr rfl, hl, rfl⟩)))
  | aresult =>
    obtain ⟨hl, h⟩ := withLive_next h
    cases h
    exact .inr (.inr (.inr (.inr ⟨rfl, hl, rfl⟩)))

/-- Every step that answers a next state idles, takes the reset event, or takes one command and runs it. -/
theorem step_next_cases {s t : State} (h : step s = .next t) :
    s.cfg.wellFormed = true
      ∧ ((s.pending = [] ∧ t = s)
        ∨ (∃ rest, s.pending = .reset :: rest ∧ t = s.hostReset rest)
        ∨ ∃ w din rest i, s.pending = .command w din :: rest ∧ decode w = some i
            ∧ exec i (s.takeCommand din rest) = .next t) := by
  unfold step at h
  split at h
  · cases h
  · cases h; exact ⟨‹_›, .inl ⟨‹_›, rfl⟩⟩
  · cases h; exact ⟨‹_›, .inr (.inl ⟨_, ‹_›, rfl⟩)⟩
  · split at h
    · cases h
    · exact ⟨‹_›, .inr (.inr ⟨_, _, _, _, ‹_›, ‹_›, h⟩)⟩

/-- A step that takes a command runs what the word decodes to. -/
theorem step_command {s : State} {w : CmdWord} {din : Block} {rest : List HostEvent} {i : Instr}
    (hc : s.cfg.wellFormed = true) (hp : s.pending = .command w din :: rest) (hd : decode w = some i) :
    step s = exec i (s.takeCommand din rest) := by
  simp [step, hc, hp, hd]

/-! ### Runs -/

theorem runSteps_zero (s : State) : runSteps 0 s = .next s := rfl

theorem runSteps_next {s t : State} (k : Nat) (h : step s = .next t) : runSteps (k + 1) s = runSteps k t := by
  simp [runSteps, Host.Core.run, core, h]

theorem runSteps_fault {s : State} {f : Fault} (k : Nat) (h : step s = .fault f) : runSteps (k + 1) s = .fault f := by
  simp [runSteps, Host.Core.run, core, h]

theorem runSteps_refused {s : State} {r : Refusal} (k : Nat) (h : step s = .refused r) :
    runSteps (k + 1) s = .refused r := by
  simp [runSteps, Host.Core.run, core, h]

end Sys2Proof.Machine
end

