-- ==== Sys2Proof/Laws/Cores.lean ====
section
/-! SUPPORT. What a step of one core of several can do (60_exceptions.md R87). -/

namespace Sys2Proof.Machine

@[simp] theorem advance_running (s : State) : (CoreRun.running s).advance = CoreRun.ofResult (step s) := rfl

@[simp] theorem advance_faulted (f : Fault) : (CoreRun.faulted f).advance = .faulted f := rfl

@[simp] theorem advance_refused (r : Refusal) : (CoreRun.refused r).advance = .refused r := rfl

@[simp] theorem addCore_cfg (sys : System) : sys.addCore.cfg = sys.cfg := rfl

@[simp] theorem addCore_cores (sys : System) :
    sys.addCore.cores = sys.cores ++ [.running (State.resetWith sys.cfg)] := rfl

/-- A core that takes a step stays under its configuration. -/
theorem underConfig_advance {c : Config} {r : CoreRun} (h : r.underConfig c = true) :
    r.advance.underConfig c = true := by
  cases r with
  | faulted _ => rfl
  | refused _ => rfl
  | running s =>
    cases hs : step s with
    | fault _ => simp [CoreRun.ofResult, CoreRun.underConfig, hs]
    | refused _ => simp [CoreRun.ofResult, CoreRun.underConfig, hs]
    | next t =>
      have hc : t.cfg = s.cfg := by
        obtain ⟨-, ⟨-, rfl⟩ | ⟨_, -, rfl⟩ | ⟨_, _, _, _, -, -, he⟩⟩ := step_next_cases hs
        · rfl
        · rfl
        · obtain ⟨_, _, -, rfl⟩ | ⟨_, -, -, rfl⟩ | ⟨-, rfl⟩ | ⟨-, -, rfl⟩ | ⟨-, -, rfl⟩ := exec_next_cases he <;> rfl
      simpa [CoreRun.ofResult, CoreRun.underConfig, hs, hc] using h

/-- A step of core `k` that gives the system a next state replaces that core by its own next and nothing else. -/
theorem stepCore_next_cases {k : Nat} {sys sys' : System} (h : stepCore k sys = some (.next sys')) :
    sys.wellFormed = true ∧ ∃ c, sys.cores[k]? = some c ∧ sys' = { sys with cores := sys.cores.set k c.advance } := by
  unfold stepCore at h
  split at h
  · cases h
  · cases h
  · cases h; exact ⟨‹_›, _, ‹_›, rfl⟩

end Sys2Proof.Machine
end

