-- ==== Sys2Proof/Laws/PerInstr.lean ====
section
/-! SUPPORT. Statements about every command as syntax, one lemma per constructor. -/

namespace Sys2Proof.Laws

/-- A word packed by R32 spells its opcode's row where no field reaches into the row's mask. -/
theorem pack_spells (op : Opcode) (rd ra rb : VIdx) (sel : BitVec 2)
    (hrd : ∀ r : VIdx, BitVec.ofNat 16 r.val <<< 9 &&& op.row.2 = 0#16)
    (hra : ∀ r : VIdx, BitVec.ofNat 16 r.val <<< 6 &&& op.row.2 = 0#16)
    (hrb : ∀ r : VIdx, BitVec.ofNat 16 r.val <<< 3 &&& op.row.2 = 0#16)
    (hsel : sel.setWidth 16 &&& op.row.2 = 0#16)
    (hop : op.code.setWidth 16 <<< 12 &&& op.row.2 = op.row.1) : pack op rd ra rb sel &&& op.row.2 = op.row.1 := by
  have or_and : ∀ x y z : CmdWord, (x ||| y) &&& z = x &&& z ||| y &&& z := fun x y z => by
    apply BitVec.eq_of_getLsbD_eq
    intro i _
    simp [Bool.and_or_distrib_right]
  simp only [pack, or_and, hrd, hra, hrb, hsel, hop, BitVec.or_zero]

end Sys2Proof.Laws

namespace Sys2Proof.Laws.Spelling

/-- The word of a command matches its own row of 30_encoding.md R33: `w AND mask = match`. -/
def Statement (i : Instr) : Prop := encode i &&& i.opcode.row.2 = i.opcode.row.1

theorem ldblk (rd : VIdx) : Statement (.ldblk rd) := by
  revert rd; unfold Statement; decide

theorem stblk (ra : VIdx) : Statement (.stblk ra) := by
  revert ra; unfold Statement; decide

theorem ldwide (rd : VIdx) : Statement (.ldwide rd) := by
  revert rd; unfold Statement; decide

theorem vxor (rd ra rb : VIdx) : Statement (.vxor rd ra rb) :=
  pack_spells .vxor rd ra rb 0#2 (by decide) (by decide) (by decide) (by decide) (by decide)

theorem pmul (rd ra rb : VIdx) (sel : Selector) : Statement (.pmul rd ra rb sel) :=
  pack_spells .pmul rd ra rb sel.bits (by decide) (by decide) (by decide) (by cases sel <;> decide) (by decide)

theorem swap (rd ra : VIdx) : Statement (.swap rd ra) := by
  revert rd ra; unfold Statement; decide

theorem mvlh (rd ra : VIdx) : Statement (.mvlh rd ra) := by
  revert rd ra; unfold Statement; decide

theorem mvhl (rd ra : VIdx) : Statement (.mvhl rd ra) := by
  revert rd ra; unfold Statement; decide

theorem fmul (rd ra rb : VIdx) : Statement (.fmul rd ra rb) :=
  pack_spells .fmul rd ra rb 0#2 (by decide) (by decide) (by decide) (by decide) (by decide)

theorem fadd (rd ra rb : VIdx) : Statement (.fadd rd ra rb) :=
  pack_spells .fadd rd ra rb 0#2 (by decide) (by decide) (by decide) (by decide) (by decide)

theorem anew : Statement .anew := by unfold Statement; decide

theorem ainput : Statement .ainput := by unfold Statement; decide

theorem achain : Statement .achain := by unfold Statement; decide

theorem aresult : Statement .aresult := by unfold Statement; decide

end Sys2Proof.Laws.Spelling
end

