-- ==== Sys2Proof/Machine/Assembler.lean ====
section
/-! DEFINITION. The assembler's side of the commands (30_encoding.md R38): mnemonics, the written form of a command,
and the pseudo-instructions, which are spellings with no opcode of their own. -/

namespace Sys2Proof.Machine

/-- The mnemonics of R33. -/
def mnemonic : Opcode → String
  | .ldblk => "LDBLK"
  | .stblk => "STBLK"
  | .ldwide => "LDWIDE"
  | .vxor => "VXOR"
  | .pmul => "PMUL"
  | .swap => "SWAP"
  | .mvlh => "MVLH"
  | .mvhl => "MVHL"
  | .fmul => "FMUL"
  | .fadd => "FADD"
  | .anew => "ANEW"
  | .ainput => "AINPUT"
  | .achain => "ACHAIN"
  | .aresult => "ARESULT"

/-- A digit of a block, in lower case (R100). -/
def blockDigit (n : Nat) : Char := "0123456789abcdef".toList.getD n '0'

/-- A digit of an integer, in upper case (R100). -/
def integerDigit (n : Nat) : Char := "0123456789ABCDEF".toList.getD n '0'

/-- A block as 32 hexadecimal digits, `B[0]` first (R38, R100). -/
def blockText (b : Block) : String :=
  String.ofList ((List.range 16).flatMap fun k =>
    [blockDigit ((byteAt b k).toNat / 16), blockDigit ((byteAt b k).toNat % 16)])

/-- A 128-bit integer, most significant digit first (R38, R100). -/
def integerText (x : Word) : String :=
  "0x" ++ String.ofList ((List.range 32).map fun k => integerDigit (x.toNat / 16 ^ (31 - k) % 16))

/-- `V0` to `V7`. -/
def registerText (i : VIdx) : String := String.ofList ['V', integerDigit i.val]

/-- `LL`, `HL`, `LH`, `HH`. -/
def selectorText : Selector → String
  | .ll => "LL"
  | .hl => "HL"
  | .lh => "LH"
  | .hh => "HH"

/-- `MNEMONIC  rd, ra, rb, sel`, the fields a format lacks left out, then the block or integer a command takes (R38). -/
def operandTexts (i : Instr) (din : Block) : List String :=
  match i with
  | .ldblk rd => [registerText rd, blockText din]
  | .stblk ra => [registerText ra]
  | .ldwide rd => [registerText rd, integerText (le128 din)]
  | .vxor rd ra rb => [registerText rd, registerText ra, registerText rb]
  | .pmul rd ra rb sel => [registerText rd, registerText ra, registerText rb, selectorText sel]
  | .swap rd ra => [registerText rd, registerText ra]
  | .mvlh rd ra => [registerText rd, registerText ra]
  | .mvhl rd ra => [registerText rd, registerText ra]
  | .fmul rd ra rb => [registerText rd, registerText ra, registerText rb]
  | .fadd rd ra rb => [registerText rd, registerText ra, registerText rb]
  | .anew => [blockText din]
  | .ainput => [blockText din]
  | .achain => [blockText din]
  | .aresult => []

/-- A command as R38 writes it. -/
def commandText (i : Instr) (din : Block) : String :=
  match operandTexts i din with
  | [] => mnemonic i.opcode
  | ops => mnemonic i.opcode ++ " " ++ ", ".intercalate ops

/-! ### Pseudo-instructions (R38) -/

/-- `PMULLL rd, ra, rb`. -/
def pseudoPmulll (rd ra rb : VIdx) : Instr := .pmul rd ra rb .ll

/-- `PMULHL rd, ra, rb`. -/
def pseudoPmulhl (rd ra rb : VIdx) : Instr := .pmul rd ra rb .hl

/-- `PMULLH rd, ra, rb`. -/
def pseudoPmullh (rd ra rb : VIdx) : Instr := .pmul rd ra rb .lh

/-- `PMULHH rd, ra, rb`. -/
def pseudoPmulhh (rd ra rb : VIdx) : Instr := .pmul rd ra rb .hh

/-- `FLD rd, <block>`. -/
def pseudoFld (rd : VIdx) (b : Block) : HostEvent := .command (encode (.ldblk rd)) b

/-- `FST ra`. -/
def pseudoFst (ra : VIdx) : Instr := .stblk ra

/-- `LDMASK rd`: `LDWIDE rd, 0xC2000000000000000000000000000001`. -/
def pseudoLdmask (rd : VIdx) : HostEvent := .command (encode (.ldwide rd)) (bytes mask)

end Sys2Proof.Machine
end

