-- ==== Sys2Proof/Tests/Slice0.lean ====
section
/-! SUPPORT. The model's own tests. Expected values come from 95_test_vectors.md and 30_encoding.md section 7, named at
each group. The theorems named `witness_…` show states and operands that meet every hypothesis of an obligation. -/

namespace Sys2Proof.Tests

open Sys2Proof.Machine Sys2Proof.Claim

/-! ### Values and states (95_test_vectors.md, "Named values") -/

def wordA : Word := 0x0F0E0D0C0B0A09080706050403020100#128

def wordB : Word := 0x0123456789ABCDEFFEDCBA9876543210#128

def wordH : Word := 0x7B754BBA26F8311D7642925847936225#128

def wordX1 : Word := 0x62A2012DBB621740B6DF838C66954F4F#128

def wordX2 : Word := 0x62F3C9D3205FE4BB06D02127DD4DA2D1#128

def blockA : Block := #v[0x00, 0x01, 0x02, 0x03, 0x04, 0x05, 0x06, 0x07, 0x08, 0x09, 0x0a, 0x0b, 0x0c, 0x0d, 0x0e, 0x0f]

def blockX1 : Block := #v[0x4f, 0x4f, 0x95, 0x66, 0x8c, 0x83, 0xdf, 0xb6, 0x40, 0x17, 0x62, 0xbb, 0x2d, 0x01, 0xa2, 0x62]

/-- `V0` = `a`, `V1` = `b`, the others never written, and no accumulator. -/
def loaded (a b : Word) : State := (State.reset.writeV 0 a).writeV 1 b

/-- A live accumulator (`h`, `acc`) with block `x` on data-in. -/
def hashing (h acc x : Word) : State := { State.reset with accH := h, accS := acc, live := true, din := bytes x }

/-- The same state on the other backend. -/
def onClmul (s : State) : State := withConfig s { backend := .clmul, hasClmul := true }

/-- A next state with property `p`. -/
def nextWith (p : State → Bool) : Result → Bool
  | .next t => p t
  | .fault _ => false
  | .refused _ => false

def faultIs (f : Fault) : Result → Bool
  | .next _ => false
  | .fault g => f == g
  | .refused _ => false

def refusalIs (r : Refusal) : Result → Bool
  | .next _ => false
  | .fault _ => false
  | .refused q => r == q

theorem of_faultIs {r : Result} {f : Fault} (h : faultIs f r = true) : r = .fault f := by
  cases r <;> simp_all [faultIs]

theorem of_refusalIs {r : Result} {q : Refusal} (h : refusalIs q r = true) : r = .refused q := by
  cases r <;> simp_all [refusalIs]

theorem of_nextWith {r : Result} {p : State → Bool} (h : nextWith p r = true) : ∃ t, r = .next t ∧ p t = true := by
  cases r <;> simp_all [nextWith]

/-! ### Well-formedness: each check with an ill-formed term it refuses -/

theorem test_clmul_without_instruction_is_ill_formed :
    Config.wellFormed { backend := .clmul, hasClmul := false } = false := by decide

theorem test_other_configurations_are_well_formed :
    (Config.wellFormed { backend := .clmul, hasClmul := true } && Config.wellFormed { backend := .bitserial, hasClmul := true }
      && Config.wellFormed { backend := .bitserial, hasClmul := false }
      && Config.select none true == { backend := .bitserial, hasClmul := true }) = true := by decide

/-- R91: a source that was never written, and a missing accumulator, are refused by the check on the host's sequence. -/
theorem test_duties_refuse :
    (admits false State.reset.written [.command 0x2000#16 blockA]
      || admits false State.reset.written [.command 0xC000#16 blockA]
      || admits false State.reset.written [.command 0x5004#16 blockA]) = false := by decide

/-! ### Decoding: 95_test_vectors.md sections 6.1 and 6.2, the bits written out -/

theorem test_decode_ldblk : decode 0b0001111000000000#16 = some (.ldblk 7) := by decide

theorem test_decode_stblk : decode 0b0010000111000000#16 = some (.stblk 7) := by decide

theorem test_decode_ldwide : decode 0b0011110000000000#16 = some (.ldwide 6) := by decide

theorem test_decode_vxor : decode 0b0100011011100000#16 = some (.vxor 3 3 4) := by decide

theorem test_decode_pmul_ll : decode 0b0101010000001000#16 = some (.pmul 2 0 1 .ll) := by decide

theorem test_decode_pmul_hl : decode 0b0101011000001001#16 = some (.pmul 3 0 1 .hl) := by decide

theorem test_decode_pmul_lh : decode 0b0101100000001010#16 = some (.pmul 4 0 1 .lh) := by decide

theorem test_decode_pmul_hh : decode 0b0101111111111011#16 = some (.pmul 7 7 7 .hh) := by decide

theorem test_decode_swap : decode 0b0110100010000000#16 = some (.swap 4 2) := by decide

theorem test_decode_mvlh : decode 0b0111100011000000#16 = some (.mvlh 4 3) := by decide

theorem test_decode_mvhl : decode 0b1000011011000000#16 = some (.mvhl 3 3) := by decide

theorem test_decode_fmul : decode 0b1001111000001000#16 = some (.fmul 7 0 1) := by decide

theorem test_decode_fadd : decode 0b1010010010001000#16 = some (.fadd 2 2 1) := by decide

theorem test_decode_anew : decode 0b1011000000000000#16 = some .anew := by decide

theorem test_decode_ainput : decode 0b1100000000000000#16 = some .ainput := by decide

theorem test_decode_achain : decode 0b1101000000000000#16 = some .achain := by decide

theorem test_decode_aresult : decode 0b1110000000000000#16 = some .aresult := by decide

/-- 95_test_vectors.md section 6.2, all of it. -/
theorem test_reserved_words :
    ([0x0000#16, 0x0FFF#16, 0xF000#16, 0xFFFF#16, 0x1001#16, 0x1008#16, 0x1040#16, 0x1004#16, 0x2200#16, 0x2008#16,
      0x3003#16, 0x4001#16, 0x4004#16, 0x5004#16, 0x5FFF#16, 0x6008#16, 0x7001#16, 0x8038#16, 0x9002#16, 0xA004#16,
      0xB001#16, 0xB200#16, 0xC040#16, 0xD008#16, 0xE004#16].all fun w => decode w == none) = true := by decide

theorem test_encode :
    encode (.pmul 3 0 1 .hl) = 0x5609#16 ∧ encode (.vxor 3 3 4) = 0x46E0#16 ∧ encode (.mvlh 7 7) = 0x7FC0#16
      ∧ encode (.fadd 7 7 7) = 0xAFF8#16 := by decide

/-- A table word is its low `nbits` bits; no command is longer than 16 bits (R39). -/
theorem test_table_word :
    decodeTableWord 16 0x1E00 = some (.ldblk 7) ∧ decodeTableWord 8 0x5004 = none
      ∧ decodeTableWord 24 0x11E00 = none := by decide

/-! ### The register capability: 95_test_vectors.md sections 2.1 to 2.3 -/

theorem test_ldblk :
    nextWith (fun t => t.vreg 7 == wordA && t.isWritten 7 && !t.isWritten 0)
      (exec (.ldblk 7) { State.reset with din := blockA }) = true := by decide

theorem test_stblk :
    nextWith (fun t => t.dout == some blockA) (exec (.stblk 0) (loaded wordA wordB)) = true := by decide

/-- The data-in `01 00 … 00 c2` is the integer `MASK`. -/
theorem test_ldwide :
    nextWith (fun t => t.vreg 6 == mask)
      (exec (.ldwide 6) { State.reset with din := #v[0x01, 0, 0, 0, 0, 0, 0, 0, 0, 0, 0, 0, 0, 0, 0, 0xc2] }) = true := by
  decide

theorem test_vxor :
    nextWith (fun t => t.vreg 0 == 0x0E2D486B82A1C4E7F9DABF9C75563310#128 && t.vreg 1 == wordB)
      (exec (.vxor 0 0 1) (loaded wordA wordB)) = true := by decide

theorem test_swap :
    nextWith (fun t => t.vreg 4 == 0x07060504030201000F0E0D0C0B0A0908#128) (exec (.swap 4 0) (loaded wordA wordB)) = true
      ∧ nextWith (fun t => t.vreg 4 == 0x07060504030201000F0E0D0C0B0A0908#128)
          (exec (.swap 4 0) (onClmul (loaded wordA wordB))) = true := by decide

theorem test_mvlh :
    nextWith (fun t => t.vreg 4 == 0x07060504030201000000000000000000#128) (exec (.mvlh 4 0) (loaded wordA wordB)) = true
      ∧ nextWith (fun t => t.vreg 4 == 0x07060504030201000000000000000000#128)
          (exec (.mvlh 4 0) (onClmul (loaded wordA wordB))) = true := by decide

theorem test_mvhl :
    nextWith (fun t => t.vreg 4 == 0x00000000000000000F0E0D0C0B0A0908#128) (exec (.mvhl 4 0) (loaded wordA wordB)) = true
      ∧ nextWith (fun t => t.vreg 4 == 0x00000000000000000F0E0D0C0B0A0908#128)
          (exec (.mvhl 4 0) (onClmul (loaded wordA wordB))) = true := by decide

/-- The four selectors on (`A`, `B`), with the loop of R52. -/
theorem test_pmul_bitserial :
    (([(.ll, 0x02FA12E80232122000DA10C800121000#128), (.hl, 0x050B0628018302A0072B040803A30080#128),
      (.lh, 0x0007EE140333ED200227EC340113EF00#128), (.hh, 0x000EFD2C077AFA58022EFF0C055AF878#128)] :
        List (Selector × Word)).all fun p =>
      nextWith (fun t => t.vreg 2 == p.2) (exec (.pmul 2 0 1 p.1) (loaded wordA wordB))) = true := by decide +kernel

/-- The same with the carry-less-multiply instruction. -/
theorem test_pmul_clmul :
    (([(.ll, 0x02FA12E80232122000DA10C800121000#128), (.hl, 0x050B0628018302A0072B040803A30080#128),
      (.lh, 0x0007EE140333ED200227EC340113EF00#128), (.hh, 0x000EFD2C077AFA58022EFF0C055AF878#128)] :
        List (Selector × Word)).all fun p =>
      nextWith (fun t => t.vreg 2 == p.2) (exec (.pmul 2 0 1 p.1) (onClmul (loaded wordA wordB)))) = true := by
  decide +kernel

/-- The trace of the loop for `x` = 3, `y` = 5, after 1, 3, 5 and 64 passes. -/
theorem test_serial_trace :
    serialLoop 3#64 5#64 1 = (1#64, 0x8000000000000000#64) ∧ serialLoop 3#64 5#64 3 = (1#64, 0xE000000000000000#64)
      ∧ serialLoop 3#64 5#64 5 = (0#64, 0x7800000000000000#64) ∧ serialLoop 3#64 5#64 64 = (0#64, 0xF#64) := by
  decide +kernel

/-! ### The field layer: 95_test_vectors.md sections 3.1 to 3.3 -/

theorem test_fmul :
    nextWith (fun t => t.vreg 7 == 0x776D08511501169C9850FF3745C6DACE#128) (exec (.fmul 7 0 1) (loaded wordX1 wordH)) = true
      ∧ nextWith (fun t => t.vreg 7 == 0x776D08511501169C9850FF3745C6DACE#128)
          (exec (.fmul 7 0 1) (onClmul (loaded wordX1 wordH))) = true := by decide +kernel

/-- A source that is also the destination. -/
theorem test_fmul_in_place :
    nextWith (fun t => t.vreg 1 == 0x05F129D2AF98C3BB47A23F8F97F5AFD8#128 && t.vreg 0 == wordA)
      (exec (.fmul 1 0 1) (loaded wordA wordB)) = true := by decide +kernel

theorem test_fadd :
    nextWith (fun t => t.vreg 2 == 0x0E2D486B82A1C4E7F9DABF9C75563310#128) (exec (.fadd 2 0 1) (loaded wordA wordB)) = true := by
  decide

theorem test_reduce :
    reduce 1#128 = 0x92040000000000000000000000000001#128 ∧ reduce mask = 1#128
      ∧ reduce (BitVec.allOnes 128) = 0x71FC0000000000000000000000000000#128 := by decide +kernel

theorem test_product_halves :
    productLow contract wordX1 wordH = 0x3833113CD6890FD8C10FF3B0516C2593#128
      ∧ productHigh contract wordX1 wordH = 0x1177339EE4C3CF41B819165448E53CBB#128 := by decide +kernel

/-! ### The accumulator: 95_test_vectors.md sections 4.1 and 4.4 -/

theorem test_anew :
    nextWith (fun t => t.accH == wordH && t.accS == 0#128 && t.live)
      (exec .anew { State.reset with din := bytes wordH, accS := wordA }) = true := by decide

theorem test_ainput :
    nextWith (fun t => t.accS == 0x7EB7E5F56C86B7E5FA1961847BB4A3F7#128 && t.accH == wordH && t.live)
      (exec .ainput (hashing wordH 0x776D08511501169C9850FF3745C6DACE#128 wordX2)) = true := by decide +kernel

theorem test_achain :
    nextWith (fun t => t.accS == 0x776D08511501169C9850FF3745C6DACE#128 && t.accH == wordH && t.live)
      (exec .achain (onClmul (hashing wordH 0#128 wordX1))) = true := by decide +kernel

theorem test_aresult :
    nextWith (fun t => t.dout == some blockX1 && t.accH == 0#128 && t.accS == 0#128 && !t.live)
      (exec .aresult (hashing wordH wordX1 0#128)) = true := by decide

/-! ### Stops and steps -/

/-- P5, command 8: `VXOR V4, V5, V1` with `V5` never written. -/
theorem test_unwritten_source : faultIs (.unwrittenRegister 5) (exec (.vxor 4 5 1) (loaded wordA wordB)) = true := by decide

theorem test_no_live_accumulator : refusalIs .noLiveAccumulator (exec .ainput State.reset) = true := by decide

theorem test_with_fetch_word :
    nextWith (fun t => t.isWritten 7 && t.pending == []) (step (State.reset.withFetchWord 16 0x1E00)) = true
      ∧ faultIs (.unwrittenRegister 7) (step (State.reset.withFetchWord 16 0x21C0)) = true
      ∧ refusalIs .illegalCommand (step (State.reset.withFetchWord 16 0x5004)) = true := by decide

theorem test_power_on :
    refusalIs .badConfiguration (powerOn (some .clmul) false) = true
      ∧ nextWith (fun t => t == State.reset) (powerOn none false) = true := by decide

/-! ### The assembler's side (R38) -/

theorem test_pseudo_instructions :
    encode (pseudoPmulll 2 0 1) = 0x5408#16 ∧ encode (pseudoPmulhl 3 0 1) = 0x5609#16
      ∧ encode (pseudoPmullh 4 0 1) = 0x580A#16 ∧ encode (pseudoPmulhh 5 0 1) = 0x5A0B#16
      ∧ encode (pseudoFst 7) = 0x21C0#16 ∧ pseudoFld 0 blockA = .command 0x1000#16 blockA
      ∧ pseudoLdmask 6 = .command 0x3C00#16 #v[0x01, 0, 0, 0, 0, 0, 0, 0, 0, 0, 0, 0, 0, 0, 0, 0xc2] := by decide

theorem test_command_text :
    commandText (.pmul 3 0 1 .hl) blockA = "PMUL V3, V0, V1, HL"
      ∧ commandText (.ldwide 6) (bytes mask) = "LDWIDE V6, 0xC2000000000000000000000000000001"
      ∧ commandText (.ldblk 0) blockA = "LDBLK V0, 000102030405060708090a0b0c0d0e0f"
      ∧ commandText .aresult blockA = "ARESULT" := by decide

/-! ### Witnesses: states and operands that meet the hypotheses of the obligations, each clause by itself -/

theorem exists_next {r : Result} (h : nextWith (fun _ => true) r = true) : ∃ t, r = .next t := by
  obtain ⟨t, ht, -⟩ := of_nextWith h
  exact ⟨t, ht⟩

/-- A core to which one command is presented, with `V0` and `V1` written and an accumulator live. -/
def offered (w : CmdWord) : State :=
  presenting { loaded wordA wordB with accH := wordH, live := true } [.command w blockX1, .reset]

/-- DecodeEncodeAgree and DecoderAgreesWithOpcodeTable: a word with every field in use, and the lowest and highest rows. -/
theorem witness_words :
    decode 0x5FFB#16 = some (.pmul 7 7 7 .hh) ∧ encode (.pmul 7 7 7 .hh) = 0x5FFB#16
      ∧ 0x5FFB#16 &&& Opcode.pmul.row.2 = Opcode.pmul.row.1 ∧ 0x1000#16 &&& Opcode.ldblk.row.2 = Opcode.ldblk.row.1
      ∧ 0xE000#16 &&& Opcode.aresult.row.2 = Opcode.aresult.row.1 := by decide

/-- ReservedWordsAreRefused: a word of each kind on a well-formed core. -/
theorem witness_reserved :
    (offered 0x0000#16).cfg.wellFormed = true ∧ (offered 0x0000#16).pending = [.command 0x0000#16 blockX1, .reset]
      ∧ decode 0x0000#16 = none ∧ (offered 0x1E00#16).pending = [.command 0x1E00#16 blockX1, .reset]
      ∧ decode 0x1E00#16 = some (.ldblk 7) := by decide

/-- StepRunsTheDecodedCommand, both clauses. -/
theorem witness_step_runs :
    (offered 0x9E08#16).cfg.wellFormed = true ∧ (offered 0x9E08#16).pending = [.command 0x9E08#16 blockX1, .reset]
      ∧ decode 0x9E08#16 = some (.fmul 7 0 1) := by decide

/-- IdleCoreKeepsItsState. -/
theorem witness_idle : State.reset.cfg.wellFormed = true ∧ State.reset.pending = [] := by decide

/-- OneEventPerStep: a command that returns a block, and one that returns none. -/
theorem witness_one_event :
    (∃ t, step (offered 0x2000#16) = .next t) ∧ (∃ t, step (offered 0x4008#16) = .next t)
      ∧ decode 0x2000#16 = some (.stblk 0) ∧ decode 0x4008#16 = some (.vxor 0 0 1) :=
  ⟨exists_next (by decide), exists_next (by decide), by decide, by decide⟩

/-- ResetEventErases, and the last clause of LifecycleTable. -/
theorem witness_reset_event :
    (presenting (hashing wordH wordX1 0#128) [.reset]).cfg.wellFormed = true
      ∧ (presenting (hashing wordH wordX1 0#128) [.reset]).pending = [.reset]
      ∧ ∃ t, step (presenting (hashing wordH wordX1 0#128) [.reset]) = .next t :=
  ⟨by decide, by decide, exists_next (by decide)⟩

/-- ResetLeavesTheSpecState: a command whose first source is `V7`. -/
theorem witness_reset_reads : (sources (.fmul 0 7 0)).head? = some 7 := by decide

/-- IllFormedConfigurationIsRefused: each side of its hypotheses. -/
theorem witness_configuration :
    (Backend.clmul = .clmul → true = true) ∧ (Backend.bitserial = .clmul → false = true)
      ∧ (withConfig State.reset { backend := .clmul, hasClmul := false }).cfg.backend = .clmul
      ∧ (withConfig State.reset { backend := .clmul, hasClmul := false }).cfg.hasClmul = false := by decide

/-- Every statement made of `UnaryCommand` or `BinaryCommand` (VXOR, SWAP, MVLH, MVHL, PMUL, FMUL, FADD) and
StblkReturnsTheRegister: both sources written; the first not; the second not, at the ends of the `V` file. -/
theorem witness_sources :
    (loaded wordA wordB).isWritten 0 = true ∧ (loaded wordA wordB).isWritten 1 = true
      ∧ (loaded wordA wordB).isWritten 7 = false := by decide

/-- LdblkLoadsTheBlock: equal integers are given by equal blocks. LdwideLoadsTheInteger: an integer on data-in. -/
theorem witness_loads :
    le128 blockA = le128 (bytes wordA) ∧ ({ State.reset with din := blockA } : State).din = bytes wordA := by decide

/-- StblkReturnsTheRegister, the two inverse laws and the clause on what a command returns. -/
theorem witness_round_trip :
    (∃ t u, exec .ainput (hashing wordH wordX1 wordX2) = .next t
        ∧ exec .ainput { hashing wordH wordX1 wordX2 with accH := wordA, live := true } = .next u) ∧
    (∃ t u, exec (.ldblk 3) { State.reset with din := blockA } = .next t ∧ exec (.stblk 3) t = .next u)
      ∧ ∃ t u, exec (.stblk 0) (loaded wordA wordB) = .next t ∧ t.dout = some (bytes wordA)
          ∧ exec (.ldblk 0) { t with din := bytes wordA } = .next u :=
  ⟨⟨_, _, rfl, rfl⟩, ⟨_, _, rfl, rfl⟩, ⟨_, _, rfl, by decide, rfl⟩⟩

/-- SwapExchangesTheLanes: there and back, and in place. -/
theorem witness_swap :
    (∃ t u, exec (.swap 4 0) (loaded wordA wordB) = .next t ∧ exec (.swap 0 4) t = .next u)
      ∧ ∃ t u, exec (.swap 1 1) (loaded wordA wordB) = .next t ∧ exec (.swap 1 1) t = .next u :=
  ⟨⟨_, _, rfl, rfl⟩, ⟨_, _, rfl, rfl⟩⟩

/-- PmulMultipliesTheSelectedLanes, its last clause on states. -/
theorem witness_pmul : ∃ t, exec (.pmul 2 0 1 .hl) (loaded wordA wordB) = .next t := ⟨_, rfl⟩

/-- The statements of AINPUT, ACHAIN and ARESULT: a live accumulator and none; the corner cases' blocks and keys. -/
theorem witness_live :
    (hashing wordH wordX1 wordX2).live = true ∧ State.reset.live = false
      ∧ (hashing wordH wordX1 0#128).din = Vector.replicate 16 0#8 ∧ (hashing 0#128 wordX1 wordX2).accH = 0#128
      ∧ (hashing mask wordX1 wordX2).accH = 0xC2000000000000000000000000000001#128
      ∧ ∃ t, exec .anew State.reset = .next t :=
  ⟨by decide, by decide, by decide, by decide, by decide, ⟨_, rfl⟩⟩

/-- LifecycleTable, its clause on the commands of the `V` file. -/
theorem witness_lifecycle :
    ¬ isAccumulatorCommand (.vxor 0 0 1) ∧ ∃ t, exec (.vxor 0 0 1) (loaded wordA wordB) = .next t :=
  ⟨by simp [isAccumulatorCommand], ⟨_, rfl⟩⟩

/-- HashIsTheHornerPolynomial, HashDependsOnKeyAndBlocksOnly, BlockOrderIdentity: two well-formed cores on different
backends, one sequence of blocks folded in two ways; and the zero key. -/
theorem witness_hash :
    State.reset.cfg.wellFormed = true ∧ (onClmul (loaded wordA wordB)).cfg.wellFormed = true
      ∧ [(false, blockX1), (true, blockA)].map Prod.snd = [(true, blockX1), (true, blockA)].map Prod.snd
      ∧ (bytes 0#128 = Vector.replicate 16 0#8) := by decide

/-- OutcomeOfEveryCommand: no accumulator; one, or none needed; a first source that was never written; all written. -/
theorem witness_outcome :
    (needsLive .aresult = true ∧ State.reset.live = false) ∧ (needsLive .aresult = true ∧ (hashing wordH 0#128 0#128).live = true)
      ∧ needsLive (.fmul 7 0 1) = false
      ∧ (sources (.vxor 4 0 7)).find? (fun r => !(loaded wordA wordB).isWritten r) = some 7
      ∧ (sources (.fmul 7 0 1)).find? (fun r => !(loaded wordA wordB).isWritten r) = none := by decide

/-- CommandsWriteOnlyWhatTheyName: a command of the `V` file, and each kind of accumulator command. -/
theorem witness_frame :
    (∃ t, exec (.swap 4 0) (loaded wordA wordB) = .next t) ∧ destination (.swap 4 0) ≠ some 7
      ∧ Instr.opcode (.swap 4 0) ≠ .stblk ∧ (∃ t, exec .ainput (hashing wordH wordX1 wordX2) = .next t)
      ∧ (Instr.ainput ≠ .anew ∧ Instr.ainput ≠ .aresult) ∧ ∃ t, exec .aresult (hashing wordH wordX1 wordX2) = .next t :=
  ⟨⟨_, rfl⟩, by decide, by decide, ⟨_, rfl⟩, by decide, ⟨_, rfl⟩⟩

/-- RegisterCommandsIgnoreTheAccumulator, AccumulatorCommandsIgnoreTheVFile, NoCommandReturnsTheKey. -/
theorem witness_separation :
    ¬ isAccumulatorCommand (.fmul 7 0 1) ∧ isAccumulatorCommand .aresult ∧ Instr.ainput ≠ .aresult :=
  ⟨by simp [isAccumulatorCommand], by simp [isAccumulatorCommand], by decide⟩

/-- StepKeepsConsistency: a consistent state with a live accumulator, before the `ARESULT` that consumes it. -/
theorem witness_consistency :
    (offered 0xE000#16).consistent = true ∧ ∃ t, step (offered 0xE000#16) = .next t :=
  ⟨by decide, exists_next (by decide)⟩

/-- DutiesDecideCompletion: a host that keeps its duties and one that does not. -/
theorem witness_duties :
    (offered 0xE000#16).safe = true ∧ (offered 0x21C0#16).safe = false := by decide

/-- Three cores of one configuration: one with a command that completes, one whose command faults, one stopped. -/
def threeCores : System :=
  { cfg := State.reset.cfg
    cores := [.running (offered 0x1E00#16), .running (offered 0x21C0#16), .refused .noLiveAccumulator] }

/-- A core's fault is its own: the system goes on, and the other cores are as they were. -/
theorem test_core_faults_alone :
    stepCore 1 threeCores
      = some (.next { threeCores with cores := (threeCores.cores.set 1 (.faulted (.unwrittenRegister 7))) }) := rfl

/-- CoresShareNothing: each kind of core and of outcome, the first and the last position. -/
theorem witness_cores :
    threeCores.wellFormed = true ∧ threeCores.cores[0]? = some (.running (offered 0x1E00#16))
      ∧ (∃ t, step (offered 0x1E00#16) = .next t) ∧ threeCores.cores[1]? = some (.running (offered 0x21C0#16))
      ∧ step (offered 0x21C0#16) = .fault (.unwrittenRegister 7) ∧ step (offered 0x5004#16) = .refused .illegalCommand
      ∧ threeCores.cores[2]? = some (.refused .noLiveAccumulator) ∧ (∀ s, CoreRun.refused .noLiveAccumulator ≠ .running s)
      ∧ (∃ a b, stepCore 0 threeCores = some (.next a) ∧ stepCore 0 threeCores.addCore = some (.next b))
      ∧ threeCores.cores[0]? = threeCores.addCore.cores[0]? ∧ (0 : Nat) ≠ 2 ∧ 2 < threeCores.cores.length :=
  ⟨by decide, by decide, exists_next (by decide), by decide, of_faultIs (by decide), of_refusalIs (by decide), by decide,
    nofun, ⟨_, _, rfl, rfl⟩, by decide, by decide, by decide⟩

/-- CoresHaveOneConfiguration: both outcomes of power-on, a step, and a system with two configurations. -/
theorem witness_one_configuration :
    (Config.select (some .clmul) true).wellFormed = true ∧ (Config.select (some .clmul) false).wellFormed = false
      ∧ threeCores.wellFormed = true ∧ (∃ a, stepCore 2 threeCores = some (.next a))
      ∧ (⟨State.reset.cfg, [.running State.reset, .running (onClmul State.reset)]⟩ : System).cores[1]?
          = some (.running (onClmul State.reset))
      ∧ (onClmul State.reset).cfg ≠ State.reset.cfg :=
  ⟨by decide, by decide, by decide, ⟨_, rfl⟩, by decide, by decide⟩

/-- SerialLoopDropsOnlyZeros, at the last pass. -/
theorem witness_serial : 63 < 64 ∧ (serialLoop 3#64 5#64 63).2.getLsbD 0 = false := by decide +kernel

/-- BackendChangesNoValue: two well-formed configurations that differ. -/
theorem witness_backends :
    (offered 0x9E08#16).cfg.wellFormed = true ∧ Config.wellFormed { backend := .clmul, hasClmul := true } = true
      ∧ (offered 0x9E08#16).cfg.backend ≠ .clmul := by decide

/-- PartialMultiplyLaws: a product that is 0, and two operands that are not. -/
theorem witness_products :
    clmul64 0#64 5#64 = 0#128 ∧ (0xFFFFFFFFFFFFFFFF#64 : Lane) ≠ 0#64 ∧ (1#64 : Lane) ≠ 0#64 := by decide

/-- FmulIsTheMontgomeryProduct: both sides of its equivalences hold somewhere. -/
theorem witness_montgomery :
    fieldPoly ∣ toPoly (0#128) * Polynomial.X ^ 128 - toPoly (0#128) * toPoly (0#128) ∧ fmul 0#128 0#128 = 0#128 :=
  ⟨by simp [toPoly], by decide +kernel⟩

/-- MaskIsTheIdentity and FieldHasInverses: a value other than 0, a product that is 0, and one that is `MASK`. -/
theorem witness_field :
    wordA ≠ 0#128 ∧ fmul 0#128 wordA = 0#128 ∧ fmul mask mask = mask := by decide +kernel

/-- FmulEqualsItsExpansion: `V0` and `V1` written, and the same two values in another core's `V6` and `V7`. -/
theorem witness_expansion :
    (loaded wordX1 wordH).cfg.wellFormed = true ∧ (loaded wordX1 wordH).isWritten 0 = true
      ∧ (loaded wordX1 wordH).isWritten 1 = true
      ∧ ((State.reset.writeV 6 wordX1).writeV 7 wordH).isWritten 6 = true
      ∧ ((State.reset.writeV 6 wordX1).writeV 7 wordH).isWritten 7 = true
      ∧ ((State.reset.writeV 6 wordX1).writeV 7 wordH).vreg 6 = (loaded wordX1 wordH).vreg 0
      ∧ ((State.reset.writeV 6 wordX1).writeV 7 wordH).vreg 7 = (loaded wordX1 wordH).vreg 1 := by decide

end Sys2Proof.Tests
end

section
/-! The bits of the carry-less product (00_scope.md R9): the sum of bit products that R9 states, and what the terms of
`clmulTerms` make of it. -/

namespace Sys2Proof.Machine

/-- The XOR over `j < n` with `j ≤ k` of `y[j] AND x[k-j]`, as R9 writes bit `k` of a product. -/
def bitProducts (x y : Lane) (k n : Nat) : Bool :=
  (List.range n).foldl (fun acc j => acc ^^ (y.getLsbD j && decide (j ≤ k) && x.getLsbD (k - j))) false

theorem bitProducts_zero (x y : Lane) (k : Nat) : bitProducts x y k 0 = false := rfl

theorem bitProducts_succ (x y : Lane) (k n : Nat) :
    bitProducts x y k (n + 1)
      = (bitProducts x y k n ^^ (y.getLsbD n && decide (n ≤ k) && x.getLsbD (k - n))) := by
  simp [bitProducts, List.range_succ]

/-- `getLsbD_term` with no bound on `k`: a term of the first 65 bits of `y` has no bit from 128 on. -/
theorem getLsbD_term_of_le (x : Lane) (b : Bool) {n : Nat} (k : Nat) (hn : n ≤ 64) :
    (if b then x.setWidth 128 <<< n else 0#128).getLsbD k = (b && decide (n ≤ k) && x.getLsbD (k - n)) := by
  by_cases hk : k < 128
  · rw [getLsbD_term x b n k hk, Bool.and_left_comm, Bool.and_assoc]
  · rw [BitVec.getLsbD_of_ge _ k (by omega), BitVec.getLsbD_of_ge x (k - n) (by omega), Bool.and_false]

theorem getLsbD_clmulTerms_succ (x y : Lane) {n : Nat} (k : Nat) (hn : n ≤ 64) :
    (clmulTerms x y (n + 1)).getLsbD k
      = ((clmulTerms x y n).getLsbD k ^^ (y.getLsbD n && decide (n ≤ k) && x.getLsbD (k - n))) := by
  rw [clmulTerms, BitVec.getLsbD_xor, getLsbD_term_of_le x _ k hn]

theorem getLsbD_clmulTerms (x y : Lane) (k n : Nat) (hn : n ≤ 64) :
    (clmulTerms x y n).getLsbD k = bitProducts x y k n := by
  induction n with
  | zero => rw [clmulTerms, bitProducts_zero, BitVec.getLsbD_zero]
  | succ n ih => rw [getLsbD_clmulTerms_succ x y k (by omega), ih (by omega), bitProducts_succ]

theorem getLsbD_clmul64 (x y : Lane) (k : Nat) : (clmul64 x y).getLsbD k = bitProducts x y k 64 :=
  getLsbD_clmulTerms x y k 64 le_rfl

end Sys2Proof.Machine
end

section
/-! The carry-less product as a product of polynomials (00_scope.md R5, R9). -/

namespace Sys2Proof.Machine

open Polynomial

/-- One term of R9 is the polynomial of `x` times the monomial of the bit of `y`. -/
theorem toPoly_term (x : Lane) (b : Bool) {n : Nat} (hn : n ≤ 64) :
    toPoly (if b then x.setWidth 128 <<< n else 0#128) = toPoly x * (if b then X ^ n else 0) := by
  cases b with
  | false => simp [toPoly_zero]
  | true =>
    have hfits : ∀ k, 128 ≤ k + n → (x.setWidth 128).getLsbD k = false := fun k hk => by
      rw [BitVec.getLsbD_setWidth, BitVec.getLsbD_of_ge x k (by omega), Bool.and_false]
    rw [if_pos rfl, if_pos rfl, toPoly_shiftLeft _ _ hfits, toPoly_setWidth _ (by omega)]

theorem toPoly_clmulTerms (x y : Lane) (n : Nat) (hn : n ≤ 64) :
    toPoly (clmulTerms x y n)
      = toPoly x * ∑ i ∈ Finset.range n, if y.getLsbD i then X ^ i else 0 := by
  induction n with
  | zero => rw [clmulTerms, toPoly_zero, Finset.sum_range_zero, mul_zero]
  | succ n ih =>
    rw [clmulTerms, toPoly_xor, ih (by omega), toPoly_term x _ (by omega), Finset.sum_range_succ, mul_add]

theorem toPoly_clmul64 (x y : Lane) : toPoly (clmul64 x y) = toPoly x * toPoly y :=
  toPoly_clmulTerms x y 64 le_rfl

end Sys2Proof.Machine
end

section
/-! Both backends compute the contract of the register capability (40_register_capability.md R48, R49;
41_clmul_unit.md R51 to R53). -/

namespace Sys2Proof.Machine

/-! ### The bit-serial loop (R52) -/

/-- After `n` passes the high lane holds the bits of the first `n` terms from bit `n` on. -/
theorem getLsbD_serialLoop_high (x y : Lane) (k n : Nat) (hn : n ≤ 64) :
    (serialLoop x y n).1.getLsbD k = (clmulTerms x y n).getLsbD (n + k) := by
  induction n generalizing k with
  | zero => simp [serialLoop, clmulTerms]
  | succ n ih =>
    rw [serialLoop, serialPass_high, ih (1 + k) (by omega), getLsbD_clmulTerms_succ x y _ (by omega),
      show n + 1 + k = n + (1 + k) by omega, Nat.add_sub_cancel_left, decide_eq_true (Nat.le_add_right n (1 + k)),
      Bool.and_true]

/-- After `n` passes the low lane holds bits `0` to `n - 1` of the first `n` terms, in its top `n` bits. -/
theorem getLsbD_serialLoop_low (x y : Lane) (k n : Nat) (hk : k < 64) (hn : n ≤ 64) :
    (serialLoop x y n).2.getLsbD k = (decide (64 ≤ n + k) && (clmulTerms x y n).getLsbD (n + k - 64)) := by
  induction n generalizing k with
  | zero => simp [serialLoop, clmulTerms]
  | succ n ih =>
    rw [serialLoop, serialPass_low x _ _ k hk, getLsbD_clmulTerms_succ x y _ (by omega)]
    split
    case isTrue htop =>
      subst htop
      rw [getLsbD_serialLoop_high x y 0 n (by omega), show n + 1 + 63 - 64 = n by omega]
      simp
    case isFalse hlow =>
      rw [ih (1 + k) (by omega) (by omega), show n + (1 + k) = n + 1 + k by omega]
      by_cases hfilled : 64 ≤ n + 1 + k
      · have hold : ¬ n ≤ n + 1 + k - 64 := by omega
        simp [hold]
      · simp [hfilled]

/-- R53: the 64 passes of R52 compute the carry-less product. -/
theorem serialMultiply_eq_clmul64 (x y : Lane) : serialMultiply x y = clmul64 x y := by
  apply BitVec.eq_of_getLsbD_eq
  intro k _
  rw [serialMultiply, getLsbD_ofLanes, clmul64]
  split
  case isTrue hlow =>
    rw [getLsbD_serialLoop_low x y k 64 hlow le_rfl, decide_eq_true (Nat.le_add_right 64 k), Bool.true_and,
      Nat.add_sub_cancel_left]
  case isFalse hhigh =>
    rw [getLsbD_serialLoop_high x y (k - 64) 64 le_rfl, Nat.add_sub_cancel' (Nat.le_of_not_lt hhigh)]

/-! ### The capability of either backend -/

/-- The word permutation of R49 exchanges the lanes. -/
theorem hardwareSwap_eq_ofLanes (v : Word) : hardwareSwap v = ofLanes (lo v) (hi v) := by
  apply BitVec.eq_of_getLsbD_eq
  intro i _
  rw [getLsbD_ofLanes, getLsbD_lo, getLsbD_hi, hardwareSwap]
  simp only [word32, BitVec.getLsbD_append, BitVec.getLsbD_extractLsb']
  by_cases hhigh : i < 64
  · by_cases hw2 : i < 32
    · simp [hw2, hhigh]
    · simp [hw2, hhigh, show i - 32 < 32 by omega, show 96 + (i - 32) = 64 + i by omega]
  · have hsub : i - 32 - 32 = i - 64 := by omega
    have hlane : i - 64 < 64 := by omega
    by_cases hw0 : i - 64 < 32
    · simp [hhigh, hsub, hlane, hw0, show ¬ i < 32 by omega, show ¬ i - 32 < 32 by omega]
    · simp [hhigh, hsub, hlane, hw0, show ¬ i < 32 by omega, show ¬ i - 32 < 32 by omega,
        show i - 64 - 32 < 32 by omega, show 32 + (i - 64 - 32) = i - 64 by omega]

theorem softwareXor_eq_xor (a b : Word) : softwareXor a b = a ^^^ b := by
  rw [softwareXor, ← hi_xor, ← lo_xor, ofLanes_hi_lo]

theorem hardwareCapability_eq_contract : hardwareCapability = contract := by
  have hswap : hardwareSwap = contract.swap := funext hardwareSwap_eq_ofLanes
  rw [hardwareCapability, hswap]
  rfl

theorem softwareCapability_eq_contract : softwareCapability = contract := by
  have hxor : softwareXor = contract.xor := funext fun a => funext (softwareXor_eq_xor a)
  have hpmul : softwarePmul = contract.pmul :=
    funext fun sel => funext fun a => funext fun b =>
      serialMultiply_eq_clmul64 (Selector.laneA sel a) (Selector.laneB sel b)
  rw [softwareCapability, hxor, hpmul]
  rfl

theorem capabilityOf_eq_contract (b : Backend) : capabilityOf b = contract := by
  cases b with
  | clmul => exact hardwareCapability_eq_contract
  | bitserial => exact softwareCapability_eq_contract

/-- R8: whatever its configuration, a core computes with the values of the contract. -/
theorem capability_eq_contract (s : State) : s.capability = contract := capabilityOf_eq_contract s.cfg.backend

end Sys2Proof.Machine
end

section
/-! What a step is in each of its cases, and what the making of a core is (00_scope.md R7; 20_memory.md R26;
60_exceptions.md R82, R88, R89; 70_reset_and_hazards.md R90). `step_command` of the model's laws is the remaining
case. -/

namespace Sys2Proof.Machine

/-- R7: `CLMUL` only where the target has the instruction. -/
theorem wellFormed_iff (c : Config) : c.wellFormed = true ↔ (c.backend = .clmul → c.hasClmul = true) := by
  obtain ⟨backend, hasClmul⟩ := c
  cases backend with
  | clmul => simp [Config.wellFormed]
  | bitserial => simp [Config.wellFormed]

theorem powerOn_wellFormed {choice : Option Backend} {b : Bool} (h : (Config.select choice b).wellFormed = true) :
    powerOn choice b = .next (State.resetWith (Config.select choice b)) := by
  rw [powerOn, h]

theorem powerOn_illFormed {choice : Option Backend} {b : Bool} (h : (Config.select choice b).wellFormed = false) :
    powerOn choice b = .refused .badConfiguration := by
  rw [powerOn, h]
  rfl

theorem step_illFormed {s : State} (hc : s.cfg.wellFormed = false) : step s = .refused .badConfiguration := by
  rw [step, hc]
  rfl

theorem step_idle {s : State} (hc : s.cfg.wellFormed = true) (hp : s.pending = []) : step s = .next s := by
  rw [step, hc, hp]
  rfl

theorem step_hostReset {s : State} {rest : List HostEvent} (hc : s.cfg.wellFormed = true)
    (hp : s.pending = .reset :: rest) : step s = .next (s.hostReset rest) := by
  rw [step, hc, hp]

theorem step_reserved {s : State} {w : CmdWord} {din : Block} {rest : List HostEvent} (hc : s.cfg.wellFormed = true)
    (hp : s.pending = .command w din :: rest) (hd : decode w = none) : step s = .refused .illegalCommand := by
  simp [step, hc, hp, hd, rejectWord]

end Sys2Proof.Machine
end

section
/-! R8: exchanging the configuration commutes with every operation, every command and every step. -/

namespace Sys2Proof.Proofs

open Sys2Proof.Machine Sys2Proof.Claim

@[simp] theorem withConfig_vreg (s : State) (c : Config) (r : VIdx) : (withConfig s c).vreg r = s.vreg r := rfl

@[simp] theorem withConfig_isWritten (s : State) (c : Config) (r : VIdx) :
    (withConfig s c).isWritten r = s.isWritten r := rfl

@[simp] theorem withConfig_live (s : State) (c : Config) : (withConfig s c).live = s.live := rfl

theorem withSource_withConfig {r : VIdx} {s : State} {c : Config} {k k' : Word → Result}
    (h : ∀ a, k' a = mapNext (withConfig · c) (k a)) :
    withSource r (withConfig s c) k' = mapNext (withConfig · c) (withSource r s k) := by
  cases hw : s.isWritten r with
  | true => rw [withSource_written k hw, withSource_written k' (by simpa using hw), withConfig_vreg, h]
  | false => rw [withSource_unwritten k hw, withSource_unwritten k' (by simpa using hw), mapNext]

theorem withLive_withConfig {s : State} {c : Config} {k k' : Result} (h : k' = mapNext (withConfig · c) k) :
    withLive (withConfig s c) k' = mapNext (withConfig · c) (withLive s k) := by
  cases hl : s.live with
  | true => rw [withLive_live k hl, withLive_live k' (by simpa using hl), h]
  | false => rw [withLive_dead k hl, withLive_dead k' (by simpa using hl), mapNext]

theorem unary_withConfig (f : Word → Word) (rd ra : VIdx) (s : State) (c : Config) :
    unary f rd ra (withConfig s c) = mapNext (withConfig · c) (unary f rd ra s) :=
  withSource_withConfig fun _ => rfl

theorem binary_withConfig (f : Word → Word → Word) (rd ra rb : VIdx) (s : State) (c : Config) :
    binary f rd ra rb (withConfig s c) = mapNext (withConfig · c) (binary f rd ra rb s) :=
  withSource_withConfig fun _ => withSource_withConfig fun _ => rfl

theorem foldBlock_withConfig (s : State) (c : Config) (x : Word) :
    (withConfig s c).foldBlock x = withConfig (s.foldBlock x) c := by
  rw [State.foldBlock, State.foldBlock, capability_eq_contract, capability_eq_contract]
  rfl

/-- A command has the same outcome under any configuration: its operands and its checks are the state's, and its
operations are the contract's on either backend. -/
theorem exec_withConfig (i : Instr) (s : State) (c : Config) :
    exec i (withConfig s c) = mapNext (withConfig · c) (exec i s) := by
  cases i with
  | ldblk rd => rfl
  | stblk ra =>
    rw [exec_stblk, exec_stblk]
    exact withSource_withConfig fun _ => rfl
  | ldwide rd => rfl
  | vxor rd ra rb => simp only [exec_vxor, capability_eq_contract, binary_withConfig]
  | pmul rd ra rb sel => simp only [exec_pmul, capability_eq_contract, binary_withConfig]
  | swap rd ra => simp only [exec_swap, capability_eq_contract, unary_withConfig]
  | mvlh rd ra => simp only [exec_mvlh, capability_eq_contract, unary_withConfig]
  | mvhl rd ra => simp only [exec_mvhl, capability_eq_contract, unary_withConfig]
  | fmul rd ra rb => simp only [exec_fmul, capability_eq_contract, binary_withConfig]
  | fadd rd ra rb => simp only [exec_fadd, capability_eq_contract, binary_withConfig]
  | anew => rfl
  | ainput => exact withLive_withConfig (congrArg _ (foldBlock_withConfig s c _))
  | achain => exact withLive_withConfig (congrArg _ (foldBlock_withConfig s c _))
  | aresult => exact withLive_withConfig rfl

theorem step_withConfig {s : State} {c : Config} (hs : s.cfg.wellFormed = true) (hc : c.wellFormed = true) :
    step (withConfig s c) = mapNext (withConfig · c) (step s) := by
  have hc' : (withConfig s c).cfg.wellFormed = true := hc
  cases hp : s.pending with
  | nil => rw [step_idle hs hp, step_idle hc' hp]; rfl
  | cons e rest =>
    cases e with
    | reset => rw [step_hostReset hs hp, step_hostReset hc' hp]; rfl
    | command w din =>
      cases hd : decode w with
      | none => rw [step_reserved hs hp hd, step_reserved hc' hp hd]; rfl
      | some i => rw [step_command hs hp hd, step_command hc' hp hd]; exact exec_withConfig i (s.takeCommand din rest) c

end Sys2Proof.Proofs
end

section
/-! The statements of 00_scope.md. -/

namespace Sys2Proof.Proofs

open Sys2Proof.Machine Sys2Proof.Claim

/-- Settles O41: both backends compute the contract's values, so exchanging the configuration commutes with every
step. -/
theorem backendChangesNoValue : Obligations.BackendChangesNoValue :=
  fun _ _ hs hc => step_withConfig hs hc

/-- Settles O42, by induction on the terms of R9; no term reaches bit 127. -/
theorem clmulBits : Obligations.ClmulBits :=
  fun x y => ⟨getLsbD_clmul64 x y, clmulTerms_high x y 64 127 le_rfl⟩

/-- Settles O43, by induction on the terms of R9, each of which is `x` times a monomial. -/
theorem clmulIsThePolynomialProduct : Obligations.ClmulIsThePolynomialProduct := toPoly_clmul64

/-- Settles O10: R7's check decides at power-on, and is the first of a step. -/
theorem illFormedConfigurationIsRefused : Obligations.IllFormedConfigurationIsRefused := by
  refine ⟨fun b => powerOn_wellFormed rfl, fun c b => ⟨fun hc => ?_, fun hc hb => ?_⟩, fun s hb hh => ?_⟩
  · exact powerOn_wellFormed ((wellFormed_iff _).mpr hc)
  · subst hc hb
    exact powerOn_illFormed rfl
  · apply step_illFormed
    rw [Config.wellFormed, hb, hh]

end Sys2Proof.Proofs
end

section
/-! What a command leaves of the state it runs on (10_state.md R14, R19): the fields of `foldBlock` and of the reset
state that the model's laws do not list, and the consistency of a state as a proposition, kept by each operation. -/

namespace Sys2Proof.Machine

/-! ### `foldBlock` -/

@[simp] theorem foldBlock_cfg (s : State) (x : Word) : (s.foldBlock x).cfg = s.cfg := rfl

@[simp] theorem foldBlock_accH (s : State) (x : Word) : (s.foldBlock x).accH = s.accH := rfl

@[simp] theorem foldBlock_live (s : State) (x : Word) : (s.foldBlock x).live = s.live := rfl

@[simp] theorem foldBlock_din (s : State) (x : Word) : (s.foldBlock x).din = s.din := rfl

@[simp] theorem foldBlock_dout (s : State) (x : Word) : (s.foldBlock x).dout = s.dout := rfl

@[simp] theorem foldBlock_pending (s : State) (x : Word) : (s.foldBlock x).pending = s.pending := rfl

@[simp] theorem foldBlock_vreg (s : State) (x : Word) (j : VIdx) : (s.foldBlock x).vreg j = s.vreg j := rfl

@[simp] theorem foldBlock_isWritten (s : State) (x : Word) (j : VIdx) :
    (s.foldBlock x).isWritten j = s.isWritten j := rfl

/-! ### The reset state -/

@[simp] theorem resetWith_accH (c : Config) : (State.resetWith c).accH = 0#128 := rfl

@[simp] theorem resetWith_accS (c : Config) : (State.resetWith c).accS = 0#128 := rfl

@[simp] theorem resetWith_live (c : Config) : (State.resetWith c).live = false := rfl

@[simp] theorem resetWith_vreg (c : Config) (j : VIdx) : (State.resetWith c).vreg j = 0#128 := by
  simp [State.vreg, State.resetWith]

@[simp] theorem resetWith_isWritten (c : Config) (j : VIdx) : (State.resetWith c).isWritten j = false := by
  simp [State.isWritten, State.resetWith]

/-! ### Consistency -/

theorem consistent_iff (s : State) :
    s.consistent = true ↔
      (s.live = false → s.accH = 0#128 ∧ s.accS = 0#128) ∧ ∀ j : VIdx, s.isWritten j = false → s.vreg j = 0#128 := by
  simp [State.consistent, or_iff_not_imp_left]

theorem resetWith_consistent (c : Config) : (State.resetWith c).consistent = true := by
  simp [consistent_iff]

theorem hostReset_consistent (s : State) (rest : List HostEvent) : (s.hostReset rest).consistent = true := by
  simp [consistent_iff]

theorem takeCommand_consistent {s : State} (hs : s.consistent = true) (din : Block) (rest : List HostEvent) :
    (s.takeCommand din rest).consistent = true := hs

/-- A write sets the mark of the register it changes, so it leaves the unwritten ones as they are. -/
theorem writeV_consistent {s : State} (hs : s.consistent = true) (rd : VIdx) (x : Word) :
    (s.writeV rd x).consistent = true := by
  rw [consistent_iff] at hs ⊢
  obtain ⟨hacc, hv⟩ := hs
  refine ⟨hacc, fun j hj => ?_⟩
  by_cases hjd : j = rd
  · subst hjd
    simp at hj
  · rw [writeV_isWritten_other s x hjd] at hj
    rw [writeV_vreg_other s x hjd, hv j hj]

/-- An accumulator may take any contents that are zero where it is not alive. -/
theorem setAccumulator_consistent {s : State} (hs : s.consistent = true) {h acc : Word} {alive : Bool}
    (hz : alive = false → h = 0#128 ∧ acc = 0#128) : (s.setAccumulator h acc alive).consistent = true := by
  rw [consistent_iff] at hs ⊢
  obtain ⟨-, hv⟩ := hs
  exact ⟨hz, hv⟩

theorem exec_consistent {i : Instr} {s t : State} (hs : s.consistent = true) (h : exec i s = .next t) :
    t.consistent = true := by
  obtain ⟨rd, x, -, rfl⟩ | ⟨ra, -, -, rfl⟩ | ⟨-, rfl⟩ | ⟨-, hl, rfl⟩ | ⟨-, -, rfl⟩ := exec_next_cases h
  · exact writeV_consistent hs rd x
  · exact hs
  · exact setAccumulator_consistent hs (by simp)
  · exact setAccumulator_consistent hs (by simp [hl])
  · exact setAccumulator_consistent hs fun _ => ⟨rfl, rfl⟩

theorem step_consistent {s t : State} (hs : s.consistent = true) (h : step s = .next t) : t.consistent = true := by
  obtain ⟨-, ⟨-, rfl⟩ | ⟨rest, -, rfl⟩ | ⟨w, din, rest, i, -, -, hex⟩⟩ := step_next_cases h
  · exact hs
  · exact hostReset_consistent s rest
  · exact exec_consistent (takeCommand_consistent hs din rest) hex

/-! ### A first source that was never written -/

theorem unary_unwritten {f : Word → Word} {rd ra : VIdx} {s : State} (h : s.isWritten ra = false) :
    unary f rd ra s = .fault (.unwrittenRegister ra) :=
  withSource_unwritten _ h

theorem binary_unwritten {f : Word → Word → Word} {rd ra rb : VIdx} {s : State} (h : s.isWritten ra = false) :
    binary f rd ra rb s = .fault (.unwrittenRegister ra) :=
  withSource_unwritten _ h

/-- R40 step 2: no command computes before it has read its first source. -/
theorem exec_unwritten_first_source {i : Instr} {r : VIdx} {s : State} (hr : (sources i).head? = some r)
    (h : s.isWritten r = false) : exec i s = .fault (.unwrittenRegister r) := by
  cases i with
  | stblk ra =>
    cases hr
    rw [exec_stblk]
    exact withSource_unwritten _ h
  | vxor | pmul | fmul | fadd =>
    cases hr
    exact binary_unwritten h
  | swap | mvlh | mvhl =>
    cases hr
    exact unary_unwritten h
  | ldblk | ldwide | anew | ainput | achain | aresult => cases hr

end Sys2Proof.Machine
end

section
/-! The accumulator and the `V` file are separate storage (10_state.md R14, R20; 43_accumulator.md introduction): a
change to one commutes with the commands of the other, and no command but `ARESULT` lets `H` or `S` reach what is left
when both are hidden (R12, R13). -/

namespace Sys2Proof.Proofs

open Sys2Proof.Machine Sys2Proof.Claim

/-! ### `mapNext` moves through the shared operations -/

theorem mapNext_mapNext (f g : State → State) (r : Result) :
    mapNext f (mapNext g r) = mapNext (fun t => f (g t)) r := by
  cases r <;> rfl

theorem mapNext_withSource (f : State → State) (r : VIdx) (s : State) (k : Word → Result) :
    mapNext f (withSource r s k) = withSource r s fun a => mapNext f (k a) := by
  cases hw : s.isWritten r with
  | true => rw [withSource_written _ hw, withSource_written _ hw]
  | false => rw [withSource_unwritten _ hw, withSource_unwritten _ hw, mapNext]

theorem mapNext_withLive (f : State → State) (s : State) (k : Result) :
    mapNext f (withLive s k) = withLive s (mapNext f k) := by
  cases hl : s.live with
  | true => rw [withLive_live _ hl, withLive_live _ hl]
  | false => rw [withLive_dead _ hl, withLive_dead _ hl, mapNext]

/-! ### Another accumulator under a command of the `V` file -/

theorem unary_setAccumulator (f : Word → Word) (rd ra : VIdx) (s : State) (h acc : Word) (alive : Bool) :
    unary f rd ra (s.setAccumulator h acc alive) = mapNext (·.setAccumulator h acc alive) (unary f rd ra s) := by
  rw [unary, unary, mapNext_withSource]
  rfl

theorem binary_setAccumulator (f : Word → Word → Word) (rd ra rb : VIdx) (s : State) (h acc : Word) (alive : Bool) :
    binary f rd ra rb (s.setAccumulator h acc alive)
      = mapNext (·.setAccumulator h acc alive) (binary f rd ra rb s) := by
  simp only [binary, mapNext_withSource]
  rfl

theorem exec_setAccumulator {i : Instr} (hi : ¬ isAccumulatorCommand i) (s : State) (h acc : Word) (alive : Bool) :
    exec i (s.setAccumulator h acc alive) = mapNext (·.setAccumulator h acc alive) (exec i s) := by
  cases i with
  | ldblk | ldwide => rfl
  | stblk =>
    rw [exec_stblk, exec_stblk, mapNext_withSource]
    rfl
  | vxor | pmul | fmul | fadd => exact binary_setAccumulator _ _ _ _ s h acc alive
  | swap | mvlh | mvhl => exact unary_setAccumulator _ _ _ s h acc alive
  | anew | ainput | achain | aresult => simp [isAccumulatorCommand] at hi

/-! ### Another `V` file under a command of the accumulator -/

/-- The same state with other contents of the `V` file. -/
def withVFile (s : State) (v : Vector Word 8) (written : Vector Bool 8) : State := { s with v := v, written := written }

theorem withLive_withVFile (s : State) (v : Vector Word 8) (written : Vector Bool 8) (k : Result) :
    withLive (withVFile s v written) k = withLive s k := rfl

theorem foldBlock_withVFile (s : State) (v : Vector Word 8) (written : Vector Bool 8) (x : Word) :
    (withVFile s v written).foldBlock x = withVFile (s.foldBlock x) v written := rfl

theorem exec_withVFile {i : Instr} (hi : isAccumulatorCommand i) (s : State) (v : Vector Word 8)
    (written : Vector Bool 8) :
    exec i (withVFile s v written) = mapNext (withVFile · v written) (exec i s) := by
  obtain rfl | rfl | rfl | rfl := hi
  · rfl
  · rw [exec_ainput, exec_ainput, mapNext_withLive, withLive_withVFile, foldBlock_withVFile]
    rfl
  · rw [exec_achain, exec_achain, mapNext_withLive, withLive_withVFile, foldBlock_withVFile]
    rfl
  · rw [exec_aresult, exec_aresult, mapNext_withLive, withLive_withVFile]
    rfl

/-! ### What is left when `H` and `S` are hidden -/

/-- The state with `H` and `S` hidden; `LIVE` stays. -/
def hideHash (s : State) : State := { s with accH := 0#128, accS := 0#128 }

theorem hideHash_setAccumulator (s : State) (h acc : Word) (alive : Bool) :
    hideHash (s.setAccumulator h acc alive) = s.setAccumulator 0#128 0#128 alive := rfl

theorem hideHash_foldBlock (s : State) (x : Word) : hideHash (s.foldBlock x) = hideHash s := rfl

/-- Both sides are what the command does to the `V` file and the ports, beside an accumulator of zeros. -/
theorem exec_hideHash_of_register {i : Instr} (hi : ¬ isAccumulatorCommand i) (s : State) (h acc : Word) :
    mapNext hideHash (exec i (s.setAccumulator h acc s.live)) = mapNext hideHash (exec i s) := by
  have hidden (h' acc' : Word) : mapNext hideHash (exec i (s.setAccumulator h' acc' s.live))
      = mapNext (·.setAccumulator 0#128 0#128 s.live) (exec i s) := by
    rw [exec_setAccumulator hi, mapNext_mapNext]
    simp only [hideHash_setAccumulator]
  exact (hidden h acc).trans (hidden s.accH s.accS).symm

/-- Folding a block writes only `S`, which is hidden. -/
theorem withLive_foldBlock_hideHash (s : State) (h acc x : Word) :
    mapNext hideHash (withLive (s.setAccumulator h acc s.live) (.next ((s.setAccumulator h acc s.live).foldBlock x)))
      = mapNext hideHash (withLive s (.next (s.foldBlock x))) := by
  rw [mapNext_withLive, mapNext_withLive, mapNext, mapNext, hideHash_foldBlock, hideHash_foldBlock]
  rfl

theorem exec_hideHash {i : Instr} (hi : i ≠ .aresult) (s : State) (h acc : Word) :
    mapNext hideHash (exec i (s.setAccumulator h acc s.live)) = mapNext hideHash (exec i s) := by
  by_cases hacc : isAccumulatorCommand i
  · obtain rfl | rfl | rfl | rfl := hacc
    · rfl
    · exact withLive_foldBlock_hideHash s h acc _
    · exact withLive_foldBlock_hideHash s h acc _
    · exact absurd rfl hi
  · exact exec_hideHash_of_register hacc s h acc

/-- `ARESULT` returns `S` and zeroes both, so a different `H` leaves no trace at all. -/
theorem exec_aresult_setKey (s : State) (h : Word) :
    exec .aresult (s.setAccumulator h s.accS s.live) = exec .aresult s := rfl

end Sys2Proof.Proofs
end

section
/-! The statements of 10_state.md. -/

namespace Sys2Proof.Proofs

open Sys2Proof.Machine Sys2Proof.Claim

/-- Settles O34: idling keeps the state, reset zeroes it, and each of the five changes a command can make keeps the
invariant. -/
theorem stepKeepsConsistency : Obligations.StepKeepsConsistency :=
  fun _ _ hs h => step_consistent hs h

/-- Settles O30, by the five changes a command can make. -/
theorem commandsWriteOnlyWhatTheyName : Obligations.CommandsWriteOnlyWhatTheyName := by
  intro i s t h
  obtain ⟨rd, x, hrd, rfl⟩ | ⟨ra, rfl, -, rfl⟩ | ⟨rfl, rfl⟩ | ⟨rfl | rfl, -, rfl⟩ | ⟨rfl, -, rfl⟩ :=
    exec_next_cases h
  · have other : ∀ j : VIdx, destination i ≠ some j →
        (s.writeV rd x).vreg j = s.vreg j ∧ (s.writeV rd x).isWritten j = s.isWritten j := by
      intro j hj
      have hne : j ≠ rd := fun e => hj (e ▸ hrd)
      exact ⟨writeV_vreg_other s x hne, writeV_isWritten_other s x hne⟩
    simpa using other
  · simp [Instr.opcode]
  · simp [isAccumulatorCommand]
  · simp [isAccumulatorCommand]
  · simp [isAccumulatorCommand]
  · simp [isAccumulatorCommand]

/-- Settles O32: other contents of the `V` file commute with each of the four commands. -/
theorem accumulatorCommandsIgnoreTheVFile : Obligations.AccumulatorCommandsIgnoreTheVFile :=
  fun _ s v written hi => exec_withVFile hi s v written

/-- Settles O33. The first clause is the second with `S` as it is, and for `ARESULT` the two outcomes are equal. -/
theorem noCommandReturnsTheKey : Obligations.NoCommandReturnsTheKey := by
  intro i s h acc
  refine ⟨?_, fun hi => exec_hideHash hi s h acc⟩
  by_cases hi : i = .aresult
  · subst hi
    exact congrArg (mapNext hideHash) (exec_aresult_setKey s h)
  · exact exec_hideHash hi s h s.accS

/-- Settles O8: no register is written in a reset state, so the first read of any command faults. -/
theorem resetLeavesTheSpecState : Obligations.ResetLeavesTheSpecState :=
  ⟨rfl, rfl, rfl, resetWith_isWritten _, fun _ r hr => exec_unwritten_first_source hr (resetWith_isWritten _ r),
    fun c => ⟨rfl, rfl, rfl, resetWith_isWritten c⟩⟩

/-- Settles O35: `H` and `S` are zero at reset, and so is every register. -/
theorem resetIsConsistent : Obligations.ResetIsConsistent := resetWith_consistent

end Sys2Proof.Proofs
end

section
/-! One event per step (20_memory.md R25, R26; 30_encoding.md R31): what a command, and then a step, leaves of the
configuration, of the pending events and of data-out. -/

namespace Sys2Proof.Proofs

open Sys2Proof.Machine Sys2Proof.Claim

/-! ### A command -/

theorem exec_cfg {i : Instr} {s t : State} (h : exec i s = .next t) : t.cfg = s.cfg := by
  obtain ⟨-, -, -, -, hcfg, -, -⟩ := commandsWriteOnlyWhatTheyName i s t h
  exact hcfg

theorem exec_pending {i : Instr} {s t : State} (h : exec i s = .next t) : t.pending = s.pending := by
  obtain ⟨-, -, -, -, -, -, hpending⟩ := commandsWriteOnlyWhatTheyName i s t h
  exact hpending

/-- A command that names a destination is neither of the two that return a block. -/
theorem opcode_of_destination {i : Instr} {rd : VIdx} (h : destination i = some rd) :
    ¬ (i.opcode = .stblk ∨ i.opcode = .aresult) := by
  cases i with
  | stblk | anew | ainput | achain | aresult => cases h
  | ldblk | ldwide | vxor | pmul | swap | mvlh | mvhl | fmul | fadd => simp [Instr.opcode]

/-- R25, R31: from an empty data-out, exactly the two commands that return a block fill it. -/
theorem exec_dout_ne_none_iff {i : Instr} {s t : State} (hs : s.dout = none) (h : exec i s = .next t) :
    t.dout ≠ none ↔ (i.opcode = .stblk ∨ i.opcode = .aresult) := by
  obtain ⟨rd, x, hrd, rfl⟩ | ⟨ra, rfl, -, rfl⟩ | ⟨rfl, rfl⟩ | ⟨rfl | rfl, -, rfl⟩ | ⟨rfl, -, rfl⟩ :=
    exec_next_cases h
  · simp [hs, opcode_of_destination hrd]
  · simp [Instr.opcode]
  · simp [hs, Instr.opcode]
  · simp [hs, Instr.opcode]
  · simp [hs, Instr.opcode]
  · simp [Instr.opcode]

/-! ### A step -/

theorem step_cfg {s t : State} (h : step s = .next t) : t.cfg = s.cfg := by
  obtain ⟨-, ⟨-, rfl⟩ | ⟨rest, -, rfl⟩ | ⟨w, din, rest, i, -, -, hex⟩⟩ := step_next_cases h
  · rfl
  · exact hostReset_cfg s rest
  · rw [exec_cfg hex, takeCommand_cfg]

/-- R26: idling finds nothing to take; the reset event and a command each take the first event presented. -/
theorem step_pending {s t : State} (h : step s = .next t) : t.pending = s.pending.tail := by
  obtain ⟨-, ⟨hp, rfl⟩ | ⟨rest, hp, rfl⟩ | ⟨w, din, rest, i, hp, -, hex⟩⟩ := step_next_cases h
  · rw [hp, List.tail_nil]
  · rw [hp, List.tail_cons, hostReset_pending]
  · rw [hp, List.tail_cons, exec_pending hex, takeCommand_pending]

/-- Taking a command empties data-out, so what stands there afterwards is the command's own block. -/
theorem step_dout_ne_none_iff {s t : State} {w : CmdWord} {din : Block} {rest : List HostEvent} {i : Instr}
    (h : step s = .next t) (hp : s.pending = .command w din :: rest) (hd : decode w = some i) :
    t.dout ≠ none ↔ (i.opcode = .stblk ∨ i.opcode = .aresult) := by
  obtain ⟨hc, -⟩ := step_next_cases h
  rw [step_command hc hp hd] at h
  exact exec_dout_ne_none_iff (takeCommand_dout s din rest) h

end Sys2Proof.Proofs
end

section
/-! The statement of 20_memory.md. -/

namespace Sys2Proof.Proofs

open Sys2Proof.Machine Sys2Proof.Claim

/-- Settles O7, by the three kinds of step: idling, the reset event and a command, which runs on an emptied
data-out. -/
theorem oneEventPerStep : Obligations.OneEventPerStep :=
  fun _ _ h => ⟨step_pending h, step_cfg h, fun _ _ _ _ hp hd => step_dout_ne_none_iff h hp hd⟩

end Sys2Proof.Proofs
end

section
/-! The fields of a command word and the table of rows (30_encoding.md R32, R33, R34): a word is its six fields, so a
row's `match` and `mask`, which speak of all sixteen bits at once, are read field by field as the decoder reads them. -/

namespace Sys2Proof

/-! ### A word is its six fields (R32) -/

/-- Two words with the same slice agree on every bit in it. -/
theorem getLsbD_eq_of_extractLsb'_eq {w x : CmdWord} {start len : Nat} (k : Nat)
    (h : w.extractLsb' start len = x.extractLsb' start len) (hk : start ≤ k) (hk' : k < start + len) :
    w.getLsbD k = x.getLsbD k := by
  have hbit := congrArg (BitVec.getLsbD · (k - start)) h
  simpa [show k - start < len by omega, show start + (k - start) = k by omega] using hbit

theorem eq_iff_fields_eq (w x : CmdWord) :
    w = x ↔ fieldOp w = fieldOp x ∧ fieldRd w = fieldRd x ∧ fieldRa w = fieldRa x ∧ fieldRb w = fieldRb x
      ∧ fieldZ w = fieldZ x ∧ fieldSel w = fieldSel x := by
  refine ⟨fun h => h ▸ ⟨rfl, rfl, rfl, rfl, rfl, rfl⟩, fun ⟨hop, hrd, hra, hrb, hz, hsel⟩ => ?_⟩
  apply BitVec.eq_of_getLsbD_eq
  intro k hk
  obtain h | rfl | ⟨h, h'⟩ | ⟨h, h'⟩ | ⟨h, h'⟩ | h :
      k < 2 ∨ k = 2 ∨ (3 ≤ k ∧ k < 6) ∨ (6 ≤ k ∧ k < 9) ∨ (9 ≤ k ∧ k < 12) ∨ 12 ≤ k := by
    omega
  · exact getLsbD_eq_of_extractLsb'_eq k hsel (Nat.zero_le k) h
  · exact hz
  · exact getLsbD_eq_of_extractLsb'_eq k (BitVec.toFin_injective hrb) h h'
  · exact getLsbD_eq_of_extractLsb'_eq k (BitVec.toFin_injective hra) h h'
  · exact getLsbD_eq_of_extractLsb'_eq k (BitVec.toFin_injective hrd) h h'
  · exact getLsbD_eq_of_extractLsb'_eq k hop h hk

@[simp] theorem fieldOp_and (w x : CmdWord) : fieldOp (w &&& x) = fieldOp w &&& fieldOp x :=
  BitVec.extractLsb'_and

@[simp] theorem fieldRd_and (w x : CmdWord) : fieldRd (w &&& x) = fieldRd w &&& fieldRd x := by
  simp [fieldRd, BitVec.extractLsb'_and, BitVec.toFin_and]

@[simp] theorem fieldRa_and (w x : CmdWord) : fieldRa (w &&& x) = fieldRa w &&& fieldRa x := by
  simp [fieldRa, BitVec.extractLsb'_and, BitVec.toFin_and]

@[simp] theorem fieldRb_and (w x : CmdWord) : fieldRb (w &&& x) = fieldRb w &&& fieldRb x := by
  simp [fieldRb, BitVec.extractLsb'_and, BitVec.toFin_and]

@[simp] theorem fieldZ_and (w x : CmdWord) : fieldZ (w &&& x) = (fieldZ w && fieldZ x) := BitVec.getLsbD_and

@[simp] theorem fieldSel_and (w x : CmdWord) : fieldSel (w &&& x) = fieldSel w &&& fieldSel x :=
  BitVec.extractLsb'_and

/-! ### A row of the table, field by field (R33, R34) -/

/-- The `match` column holds the opcode and nothing else. -/
theorem row_match_fields (op : Opcode) :
    fieldOp op.row.1 = op.code ∧ fieldRd op.row.1 = 0 ∧ fieldRa op.row.1 = 0 ∧ fieldRb op.row.1 = 0
      ∧ fieldZ op.row.1 = false ∧ fieldSel op.row.1 = 0#2 := by
  cases op <;> decide

/-- The `mask` column covers the opcode, bit 2 and every field that the row's format does not use. -/
theorem row_mask_fields (op : Opcode) :
    fieldOp op.row.2 = 15#4
      ∧ fieldRd op.row.2 = (if op.format.uses.1 then 0 else 7)
      ∧ fieldRa op.row.2 = (if op.format.uses.2.1 then 0 else 7)
      ∧ fieldRb op.row.2 = (if op.format.uses.2.2.1 then 0 else 7)
      ∧ fieldZ op.row.2 = true
      ∧ fieldSel op.row.2 = (if op.format.uses.2.2.2 then 0#2 else 3#2) := by
  cases op <;> decide

/-- A masked index is zero exactly where the index is used or zero. -/
theorem index_and_mask_eq_zero_iff (used : Bool) (r : VIdx) :
    r &&& (if used then 0 else 7) = 0 ↔ (used || r == 0) = true := by
  revert used r; decide

theorem sel_and_mask_eq_zero_iff (used : Bool) (sel : BitVec 2) :
    sel &&& (if used then 0#2 else 3#2) = 0#2 ↔ (used || sel == 0#2) = true := by
  revert used sel; decide

/-- R33's `w AND mask = match` says that the word has the row's opcode and R34's zeros. -/
theorem and_mask_eq_match_iff (op : Opcode) (w : CmdWord) :
    w &&& op.row.2 = op.row.1 ↔ fieldOp w = op.code ∧ op.format.unusedZero w = true := by
  obtain ⟨mop, mrd, mra, mrb, mz, msel⟩ := row_match_fields op
  obtain ⟨kop, krd, kra, krb, kz, ksel⟩ := row_mask_fields op
  have op_and_ones : fieldOp w &&& 15#4 = fieldOp w := BitVec.and_allOnes
  rw [eq_iff_fields_eq]
  simp only [fieldOp_and, fieldRd_and, fieldRa_and, fieldRb_and, fieldZ_and, fieldSel_and, mop, mrd, mra, mrb, mz,
    msel, kop, krd, kra, krb, kz, ksel, op_and_ones, index_and_mask_eq_zero_iff, sel_and_mask_eq_zero_iff,
    Bool.and_true]
  simp only [Format.unusedZero, Bool.and_eq_true, Bool.not_eq_true', and_assoc, and_comm (a := fieldZ w = false)]

/-! ### The decoder, read as the table (R33, R36) -/

theorem ofCode_eq_some_iff (code : BitVec 4) (op : Opcode) : Opcode.ofCode code = some op ↔ code = op.code := by
  cases op <;> revert code <;> decide

@[simp] theorem build_opcode (op : Opcode) (w : CmdWord) : (op.build w).opcode = op := by
  cases op <;> rfl

/-- A word decodes to what its fields spell under the opcode of the row it matches. -/
theorem decode_eq_some_iff (w : CmdWord) (i : Instr) :
    decode w = some i ↔ ∃ op : Opcode, w &&& op.row.2 = op.row.1 ∧ op.build w = i := by
  simp only [and_mask_eq_match_iff, ← ofCode_eq_some_iff]
  cases hop : Opcode.ofCode (fieldOp w) with
  | none => simp [decode, hop]
  | some op => simp [decode, hop, and_assoc]

/-- R33: a word spells a command of a row exactly when it matches the row. -/
theorem exists_decode_opcode_iff (w : CmdWord) (op : Opcode) :
    (∃ i, decode w = some i ∧ i.opcode = op) ↔ w &&& op.row.2 = op.row.1 := by
  simp only [decode_eq_some_iff]
  constructor
  · rintro ⟨_, ⟨op', hrow, rfl⟩, rfl⟩
    rwa [build_opcode]
  · exact fun hrow => ⟨op.build w, ⟨op, hrow, rfl⟩, build_opcode op w⟩

/-- R36: a reserved word matches no row. -/
theorem decode_eq_none_iff (w : CmdWord) : decode w = none ↔ ∀ op : Opcode, w &&& op.row.2 ≠ op.row.1 := by
  simp only [ne_eq, ← exists_decode_opcode_iff]
  cases decode w with
  | none => simp
  | some i => simp

/-! ### A word handed over as a number (R39) -/

@[simp] theorem tableWord_toNat (w : CmdWord) : tableWord 16 w.toNat = some w := by
  have hw : w.toNat < 2 ^ 16 := w.isLt
  rw [tableWord, Nat.mod_eq_of_lt hw, if_pos hw, BitVec.ofNat_toNat, BitVec.setWidth_eq]

@[simp] theorem decodeTableWord_toNat (w : CmdWord) : decodeTableWord 16 w.toNat = decode w := by
  simp [decodeTableWord]

end Sys2Proof
end

section
/-! What a command can be refused for (43_accumulator.md R74; 60_exceptions.md R82), and the presenting of a word
(30_encoding.md R31). -/

namespace Sys2Proof.Machine

open Sys2Proof.Claim

/-! ### Refusals of a command -/

/-- A read faults and does not refuse, so a refusal comes from what follows it. -/
theorem withSource_refused {r : VIdx} {s : State} {k : Word → Result} {q : Refusal}
    (h : withSource r s k = .refused q) : k (s.vreg r) = .refused q := by
  cases hw : s.isWritten r with
  | true => rwa [withSource_written k hw] at h
  | false => rw [withSource_unwritten k hw] at h; cases h

theorem unary_ne_refused (f : Word → Word) (rd ra : VIdx) (s : State) (q : Refusal) :
    unary f rd ra s ≠ .refused q :=
  fun h => nomatch withSource_refused h

theorem binary_ne_refused (f : Word → Word → Word) (rd ra rb : VIdx) (s : State) (q : Refusal) :
    binary f rd ra rb s ≠ .refused q :=
  fun h => nomatch withSource_refused (withSource_refused h)

theorem withLive_next_refused {s t : State} {q : Refusal} (h : withLive s (.next t) = .refused q) :
    s.live = false ∧ q = .noLiveAccumulator := by
  cases hl : s.live with
  | true => rw [withLive_live _ hl] at h; cases h
  | false => rw [withLive_dead _ hl] at h; cases h; exact ⟨rfl, rfl⟩

/-- R74: the one refusal of a command is that of a command that needs a live accumulator and finds none. -/
theorem exec_refused {i : Instr} {s : State} {q : Refusal} (h : exec i s = .refused q) :
    needsLive i = true ∧ s.live = false ∧ q = .noLiveAccumulator := by
  cases i with
  | ldblk | ldwide | anew => cases h
  | stblk ra =>
    rw [exec_stblk] at h
    cases withSource_refused h
  | vxor | pmul | fmul | fadd => exact absurd h (binary_ne_refused _ _ _ _ s q)
  | swap | mvlh | mvhl => exact absurd h (unary_ne_refused _ _ _ s q)
  | ainput | achain | aresult => exact ⟨rfl, withLive_next_refused h⟩

/-! ### A command word as the next event -/

/-- R36, R82 case a: only a reserved word is refused as one; a command that runs has no such refusal. -/
theorem step_illegalCommand_iff {s : State} {w : CmdWord} {din : Block} {rest : List HostEvent}
    (hc : s.cfg.wellFormed = true) (hp : s.pending = .command w din :: rest) :
    step s = .refused .illegalCommand ↔ decode w = none := by
  refine ⟨fun h => ?_, step_reserved hc hp⟩
  cases hd : decode w with
  | none => rfl
  | some i =>
    rw [step_command hc hp hd] at h
    obtain ⟨-, -, hq⟩ := exec_refused h
    cases hq

@[simp] theorem withFetchWord_toNat (s : State) (w : CmdWord) :
    s.withFetchWord 16 w.toNat = presenting s (.command w s.din :: s.pending) := by
  simp [State.withFetchWord, State.present, presenting]

end Sys2Proof.Machine
end

section
/-! The statements of 30_encoding.md. -/

namespace Sys2Proof.Proofs

open Sys2Proof.Machine Sys2Proof.Claim

/-- Settles O3: `match` and `mask` read field by field are the opcode and the zeros that the decoder checks. -/
theorem decoderAgreesWithOpcodeTable : Obligations.DecoderAgreesWithOpcodeTable := exists_decode_opcode_iff

/-- Settles O4: a word of no row decodes to nothing, and a word that decodes is not refused as illegal. -/
theorem reservedWordsAreRefused : Obligations.ReservedWordsAreRefused :=
  fun _ w _ _ hc hp => (decode_eq_none_iff w).symm.trans (step_illegalCommand_iff hc hp).symm

/-- Settles O5: presenting a word lays down a command event with the block on data-in, and taking that event leaves
the rest of the state as it stood. -/
theorem stepRunsTheDecodedCommand : Obligations.StepRunsTheDecodedCommand := by
  refine ⟨fun s w din rest i hc hp hd => step_command hc hp hd, fun s w i hc hd => ⟨?_, ?_⟩⟩
  · rw [decodeTableWord_toNat, hd]
  · rw [withFetchWord_toNat]
    exact step_command (s := presenting s (.command w s.din :: s.pending)) hc rfl hd

end Sys2Proof.Proofs
end

section
/-! The decoder inverts the encoder (30_encoding.md R32, R33): each operand of a packed word is read back from its own
field, so a command's word spells that command. -/

namespace Sys2Proof

open Sys2Proof.Claim

/-! ### Fields of a packed word (R32) -/

@[simp] theorem fieldRd_or (w x : CmdWord) : fieldRd (w ||| x) = fieldRd w ||| fieldRd x := by
  simp [fieldRd, BitVec.extractLsb'_or, BitVec.toFin_or]

@[simp] theorem fieldRa_or (w x : CmdWord) : fieldRa (w ||| x) = fieldRa w ||| fieldRa x := by
  simp [fieldRa, BitVec.extractLsb'_or, BitVec.toFin_or]

@[simp] theorem fieldRb_or (w x : CmdWord) : fieldRb (w ||| x) = fieldRb w ||| fieldRb x := by
  simp [fieldRb, BitVec.extractLsb'_or, BitVec.toFin_or]

@[simp] theorem fieldSel_or (w x : CmdWord) : fieldSel (w ||| x) = fieldSel w ||| fieldSel x :=
  BitVec.extractLsb'_or

theorem fields_at9 (r : VIdx) :
    fieldRd (at9 r) = r ∧ fieldRa (at9 r) = 0 ∧ fieldRb (at9 r) = 0 ∧ fieldSel (at9 r) = 0#2 := by
  revert r; decide

theorem fields_at6 (r : VIdx) :
    fieldRd (at6 r) = 0 ∧ fieldRa (at6 r) = r ∧ fieldRb (at6 r) = 0 ∧ fieldSel (at6 r) = 0#2 := by
  revert r; decide

theorem fields_at3 (r : VIdx) :
    fieldRd (at3 r) = 0 ∧ fieldRa (at3 r) = 0 ∧ fieldRb (at3 r) = r ∧ fieldSel (at3 r) = 0#2 := by
  revert r; decide

theorem fields_selector (sel : BitVec 2) :
    fieldRd (sel.setWidth 16) = 0 ∧ fieldRa (sel.setWidth 16) = 0 ∧ fieldRb (sel.setWidth 16) = 0
      ∧ fieldSel (sel.setWidth 16) = sel := by
  revert sel; decide

@[simp] theorem at9_zero : at9 0 = 0#16 := rfl

@[simp] theorem at6_zero : at6 0 = 0#16 := rfl

@[simp] theorem at3_zero : at3 0 = 0#16 := rfl

/-- R32 and R33 lay a word out alike: the `match` column is the opcode in its place. -/
theorem pack_eq_match_or (op : Opcode) (rd ra rb : VIdx) (sel : BitVec 2) :
    pack op rd ra rb sel = op.row.1 ||| at9 rd ||| at6 ra ||| at3 rb ||| sel.setWidth 16 := by
  have hop : op.code.setWidth 16 <<< 12 = op.row.1 := by cases op <;> rfl
  rw [pack, hop]
  rfl

@[simp] theorem index_or_zero (r : VIdx) : r ||| 0 = r := by
  revert r; decide

@[simp] theorem index_zero_or (r : VIdx) : 0 ||| r = r := by
  revert r; decide

theorem fields_pack (op : Opcode) (rd ra rb : VIdx) (sel : BitVec 2) :
    fieldRd (pack op rd ra rb sel) = rd ∧ fieldRa (pack op rd ra rb sel) = ra
      ∧ fieldRb (pack op rd ra rb sel) = rb ∧ fieldSel (pack op rd ra rb sel) = sel := by
  simp [pack_eq_match_or, row_match_fields, fields_at9, fields_at6, fields_at3, fields_selector]

/-! ### A command's word spells the command (R33) -/

/-- R33: the word matches the row of its command. -/
theorem encode_spells (i : Instr) : encode i &&& i.opcode.row.2 = i.opcode.row.1 := by
  cases i with
  | ldblk rd => exact Laws.Spelling.ldblk rd
  | stblk ra => exact Laws.Spelling.stblk ra
  | ldwide rd => exact Laws.Spelling.ldwide rd
  | vxor rd ra rb => exact Laws.Spelling.vxor rd ra rb
  | pmul rd ra rb sel => exact Laws.Spelling.pmul rd ra rb sel
  | swap rd ra => exact Laws.Spelling.swap rd ra
  | mvlh rd ra => exact Laws.Spelling.mvlh rd ra
  | mvhl rd ra => exact Laws.Spelling.mvhl rd ra
  | fmul rd ra rb => exact Laws.Spelling.fmul rd ra rb
  | fadd rd ra rb => exact Laws.Spelling.fadd rd ra rb
  | anew => exact Laws.Spelling.anew
  | ainput => exact Laws.Spelling.ainput
  | achain => exact Laws.Spelling.achain
  | aresult => exact Laws.Spelling.aresult

theorem ofBits_bits (sel : Selector) : Selector.ofBits sel.bits = sel := by
  cases sel <;> rfl

theorem build_encode (i : Instr) : i.opcode.build (encode i) = i := by
  cases i <;> simp [Instr.opcode, Opcode.build, encode, fields_pack, ofBits_bits]

theorem decode_encode (i : Instr) : decode (encode i) = some i :=
  (decode_eq_some_iff _ _).mpr ⟨i.opcode, encode_spells i, build_encode i⟩

/-- A word is decoded by naming the command it encodes. -/
theorem decode_of_encode {w : CmdWord} {i : Instr} (h : encode i = w) : decode w = some i :=
  h ▸ decode_encode i

/-! ### The words of the register capability (R33) -/

theorem decode_ldblk (rd : VIdx) : decode (0x1000#16 ||| at9 rd) = some (.ldblk rd) :=
  decode_of_encode (by simp [encode, pack_eq_match_or, Opcode.row])

theorem decode_stblk (ra : VIdx) : decode (0x2000#16 ||| at6 ra) = some (.stblk ra) :=
  decode_of_encode (by simp [encode, pack_eq_match_or, Opcode.row])

theorem decode_ldwide (rd : VIdx) : decode (0x3000#16 ||| at9 rd) = some (.ldwide rd) :=
  decode_of_encode (by simp [encode, pack_eq_match_or, Opcode.row])

theorem decode_vxor (rd ra rb : VIdx) : decode (0x4000#16 ||| at9 rd ||| at6 ra ||| at3 rb) = some (.vxor rd ra rb) :=
  decode_of_encode (by simp [encode, pack_eq_match_or, Opcode.row])

theorem decode_swap (rd ra : VIdx) : decode (0x6000#16 ||| at9 rd ||| at6 ra) = some (.swap rd ra) :=
  decode_of_encode (by simp [encode, pack_eq_match_or, Opcode.row])

theorem decode_mvlh (rd ra : VIdx) : decode (0x7000#16 ||| at9 rd ||| at6 ra) = some (.mvlh rd ra) :=
  decode_of_encode (by simp [encode, pack_eq_match_or, Opcode.row])

theorem decode_mvhl (rd ra : VIdx) : decode (0x8000#16 ||| at9 rd ||| at6 ra) = some (.mvhl rd ra) :=
  decode_of_encode (by simp [encode, pack_eq_match_or, Opcode.row])

end Sys2Proof
end

section
/-! The values of the structural operations (40_register_capability.md R44 to R47) as shifts, a rotation and a movement
of bytes. -/

namespace Sys2Proof.Machine

/-! ### The exchange of the lanes (R45) -/

theorem swap_swap (a : Word) : contract.swap (contract.swap a) = a := by
  simp [contract]

theorem getLsbD_swap (a : Word) {i : Nat} (hi : i < 128) :
    (contract.swap a).getLsbD i = a.getLsbD ((i + 64) % 128) := by
  rw [contract, getLsbD_ofLanes, getLsbD_hi, getLsbD_lo]
  by_cases hlow : i < 64
  · simp [hlow, show (i + 64) % 128 = 64 + i by omega]
  · simp [hlow, show (i + 64) % 128 = i - 64 by omega, show i - 64 < 64 by omega]

theorem swap_eq_rotateLeft (a : Word) : contract.swap a = a.rotateLeft 64 := by
  apply BitVec.eq_of_getLsbD_eq
  intro i hi
  rw [getLsbD_swap a hi, BitVec.getLsbD_rotateLeft]
  by_cases hlow : i < 64
  · simp [hlow, show (i + 64) % 128 = 64 + i by omega]
  · simp [hlow, hi, show (i + 64) % 128 = i - 64 by omega]

theorem swap_xor (a b : Word) : contract.swap (a ^^^ b) = contract.swap a ^^^ contract.swap b := by
  apply BitVec.eq_of_getLsbD_eq
  intro i hi
  simp only [BitVec.getLsbD_xor, getLsbD_swap _ hi]

theorem byteAt_bytes_swap (a : Word) {k : Nat} (hk : k < 16) :
    byteAt (bytes (contract.swap a)) k = byteAt (bytes a) ((k + 8) % 16) := by
  rw [byteAt_bytes _ k hk, byteAt_bytes _ _ (Nat.mod_lt _ (by omega))]
  apply BitVec.eq_of_getLsbD_eq
  intro i hi
  rw [BitVec.getLsbD_extractLsb', BitVec.getLsbD_extractLsb', getLsbD_swap a (by omega),
    show (8 * k + i + 64) % 128 = 8 * ((k + 8) % 16) + i by omega]

/-! ### A lane moved over a zero lane (R46, R47) -/

theorem mvlh_eq_shiftLeft (a : Word) : contract.mvlh a = a <<< 64 := by
  apply BitVec.eq_of_getLsbD_eq
  intro i hi
  rw [contract, getLsbD_ofLanes, getLsbD_lo, BitVec.getLsbD_shiftLeft]
  by_cases hlow : i < 64
  · simp [hlow]
  · simp [hlow, hi, show i - 64 < 64 by omega]

theorem mvhl_eq_ushiftRight (a : Word) : contract.mvhl a = a >>> 64 := by
  apply BitVec.eq_of_getLsbD_eq
  intro i hi
  rw [contract, getLsbD_ofLanes, getLsbD_hi, BitVec.getLsbD_ushiftRight]
  by_cases hlow : i < 64
  · simp [hlow]
  · simp [hlow, BitVec.getLsbD_of_ge a (64 + i) (by omega)]

theorem toPoly_mvlh (a : Word) : toPoly (contract.mvlh a) = toPoly (lo a) * Polynomial.X ^ 64 := by
  rw [contract, toPoly_ofLanes, toPoly_zero, zero_add]

/-- What `MVLH` shifts out at the top is what `MVHL` keeps. -/
theorem mvhl_append_mvlh (a : Word) : contract.mvhl a ++ contract.mvlh a = a.setWidth 256 <<< 64 := by
  rw [mvlh_eq_shiftLeft, mvhl_eq_ushiftRight]
  apply BitVec.eq_of_getLsbD_eq
  intro i hi
  rw [BitVec.getLsbD_append, BitVec.getLsbD_shiftLeft, BitVec.getLsbD_ushiftRight, BitVec.getLsbD_shiftLeft,
    BitVec.getLsbD_setWidth]
  by_cases hlow : i < 128
  · simp [hlow, hi, show i - 64 < 256 by omega]
  · simp [hlow, hi, show ¬ i < 64 by omega, show i - 64 < 256 by omega, show 64 + (i - 128) = i - 64 by omega]

end Sys2Proof.Machine
end

section
/-! What the commands of the `V` file do (40_register_capability.md R40 to R47) and what data-out holds after any
command. -/

namespace Sys2Proof.Machine

/-! ### Commands of one and of two sources (R40) -/

theorem unary_written {f : Word → Word} {rd ra : VIdx} {s : State} (h : s.isWritten ra = true) :
    unary f rd ra s = .next (s.writeV rd (f (s.vreg ra))) :=
  withSource_written _ h

theorem binary_written {f : Word → Word → Word} {rd ra rb : VIdx} {s : State} (ha : s.isWritten ra = true)
    (hb : s.isWritten rb = true) : binary f rd ra rb s = .next (s.writeV rd (f (s.vreg ra) (s.vreg rb))) := by
  rw [binary, withSource_written _ ha, withSource_written _ hb]

theorem binary_second_unwritten {f : Word → Word → Word} {rd ra rb : VIdx} {s : State} (ha : s.isWritten ra = true)
    (hb : s.isWritten rb = false) : binary f rd ra rb s = .fault (.unwrittenRegister rb) := by
  rw [binary, withSource_written _ ha, withSource_unwritten _ hb]

/-! ### The four commands on the contract's values (R44 to R47) -/

theorem exec_vxor_contract (rd ra rb : VIdx) (s : State) :
    exec (.vxor rd ra rb) s = binary contract.xor rd ra rb s := by
  rw [exec_vxor, capability_eq_contract]

theorem exec_swap_contract (rd ra : VIdx) (s : State) : exec (.swap rd ra) s = unary contract.swap rd ra s := by
  rw [exec_swap, capability_eq_contract]

theorem exec_mvlh_contract (rd ra : VIdx) (s : State) : exec (.mvlh rd ra) s = unary contract.mvlh rd ra s := by
  rw [exec_mvlh, capability_eq_contract]

theorem exec_mvhl_contract (rd ra : VIdx) (s : State) : exec (.mvhl rd ra) s = unary contract.mvhl rd ra s := by
  rw [exec_mvhl, capability_eq_contract]

/-- R45: there and back the register holds what it held, whether or not the two registers are one. -/
theorem vreg_of_swap_swap {rd ra : VIdx} {s t u : State} (ht : exec (.swap rd ra) s = .next t)
    (hu : exec (.swap ra rd) t = .next u) : u.vreg ra = s.vreg ra := by
  rw [exec_swap_contract] at ht hu
  obtain ⟨-, rfl⟩ := unary_next ht
  obtain ⟨-, rfl⟩ := unary_next hu
  rw [writeV_vreg_same, writeV_vreg_same, swap_swap]

/-! ### The two loads and the store (R41 to R43) -/

theorem exec_ldblk (rd : VIdx) (s : State) : exec (.ldblk rd) s = .next (s.writeV rd (le128 s.din)) := rfl

theorem exec_ldwide (rd : VIdx) (s : State) : exec (.ldwide rd) s = .next (s.writeV rd (le128 s.din)) := rfl

theorem exec_stblk_written {ra : VIdx} {s : State} (h : s.isWritten ra = true) :
    exec (.stblk ra) s = .next (s.returnBlock (bytes (s.vreg ra))) := by
  rw [exec_stblk, withSource_written _ h]

theorem exec_stblk_next {ra : VIdx} {s t : State} (h : exec (.stblk ra) s = .next t) :
    s.isWritten ra = true ∧ t = s.returnBlock (bytes (s.vreg ra)) := by
  rw [exec_stblk] at h
  obtain ⟨hw, h⟩ := withSource_next h
  cases h
  exact ⟨hw, rfl⟩

/-- R42: the command may be repeated and returns the same block. -/
theorem exec_stblk_repeated {ra : VIdx} {s t : State} (h : exec (.stblk ra) s = .next t) :
    exec (.stblk ra) t = .next t := by
  obtain ⟨hw, rfl⟩ := exec_stblk_next h
  exact exec_stblk_written hw

theorem le128_injective {b b' : Block} (h : le128 b = le128 b') : b = b' := by
  rw [← bytes_le128 b, h, bytes_le128]

/-- R42: `STBLK` after `LDBLK` returns the block. -/
theorem dout_of_ldblk_stblk {r : VIdx} {s t u : State} (ht : exec (.ldblk r) s = .next t)
    (hu : exec (.stblk r) t = .next u) : u.dout = some s.din := by
  cases ht
  obtain ⟨-, rfl⟩ := exec_stblk_next hu
  rw [returnBlock_dout, writeV_vreg_same, State.dinBlock, bytes_le128]

/-- R42: `LDBLK` of the block that `STBLK` returned restores the value. -/
theorem vreg_of_stblk_ldblk {r : VIdx} {s t u : State} {b : Block} (ht : exec (.stblk r) s = .next t)
    (hb : t.dout = some b) (hu : exec (.ldblk r) { t with din := b } = .next u) : u.vreg r = s.vreg r := by
  obtain ⟨-, rfl⟩ := exec_stblk_next ht
  cases hb
  cases hu
  rw [writeV_vreg_same]
  exact le128_bytes _

/-! ### The block a command returns (R25, R42, R73) -/

/-- What data-out holds after a command: the register `STBLK` names, or `S` as it stood before `ARESULT`, or what it
held. -/
def doutAfter (i : Instr) (s : State) : Option Block :=
  match i with
  | .stblk ra => some (bytes (s.vreg ra))
  | .aresult => some (bytes s.accS)
  | _ => s.dout

theorem doutAfter_of_destination {i : Instr} {rd : VIdx} (h : destination i = some rd) (s : State) :
    doutAfter i s = s.dout := by
  cases i with
  | stblk | anew | ainput | achain | aresult => cases h
  | ldblk | ldwide | vxor | pmul | swap | mvlh | mvhl | fmul | fadd => rfl

theorem exec_dout {i : Instr} {s t : State} (h : exec i s = .next t) : t.dout = doutAfter i s := by
  obtain ⟨rd, x, hrd, rfl⟩ | ⟨ra, rfl, -, rfl⟩ | ⟨rfl, rfl⟩ | ⟨rfl | rfl, -, rfl⟩ | ⟨rfl, -, rfl⟩ :=
    exec_next_cases h
  · rw [doutAfter_of_destination hrd, writeV_dout]
  · rfl
  · rfl
  · rfl
  · rfl
  · rfl

theorem doutAfter_setKey (i : Instr) (s : State) (h : Word) (alive : Bool) :
    doutAfter i { s with accH := h, live := alive } = doutAfter i s := by
  cases i <;> rfl

/-- R42: no command returns `H` or `LIVE`, or lets them choose the block it returns. -/
theorem dout_eq_of_setKey {i : Instr} {s t u : State} {h : Word} {alive : Bool} (ht : exec i s = .next t)
    (hu : exec i { s with accH := h, live := alive } = .next u) : u.dout = t.dout := by
  rw [exec_dout hu, exec_dout ht, doutAfter_setKey]

end Sys2Proof.Machine
end

section
/-! A command over `unary` or `binary` is what the statements call a command of one or of two sources
(40_register_capability.md R40). -/

namespace Sys2Proof.Proofs

open Sys2Proof.Machine Sys2Proof.Claim

theorem writeV_writesV (s : State) (rd : VIdx) (x : Word) : WritesV s (s.writeV rd x) rd x :=
  ⟨writeV_vreg_same s rd x, writeV_isWritten_same s rd x,
    fun _ hj => ⟨writeV_vreg_other s x hj, writeV_isWritten_other s x hj⟩, rfl, rfl, rfl, rfl, rfl, rfl, rfl⟩

theorem unaryCommand_of_exec {i : Instr} {rd ra : VIdx} {f : Word → Word} (h : ∀ s, exec i s = unary f rd ra s) :
    UnaryCommand i rd ra f := by
  intro s
  rw [h s]
  exact ⟨fun hw => ⟨_, unary_written hw, writeV_writesV s rd _⟩, unary_unwritten⟩

theorem binaryCommand_of_exec {i : Instr} {rd ra rb : VIdx} {f : Word → Word → Word}
    (h : ∀ s, exec i s = binary f rd ra rb s) : BinaryCommand i rd ra rb f := by
  intro s
  rw [h s]
  exact ⟨fun ha hb => ⟨_, binary_written ha hb, writeV_writesV s rd _⟩, binary_unwritten, binary_second_unwritten⟩

theorem unaryCommand_congr {i : Instr} {rd ra : VIdx} {f g : Word → Word} (hfg : ∀ a, f a = g a)
    (h : UnaryCommand i rd ra f) : UnaryCommand i rd ra g :=
  funext hfg ▸ h

theorem binaryCommand_congr {i : Instr} {rd ra rb : VIdx} {f g : Word → Word → Word} (hfg : ∀ a b, f a b = g a b)
    (h : BinaryCommand i rd ra rb f) : BinaryCommand i rd ra rb g :=
  funext₂ hfg ▸ h

/-- A command of two sources that are one register is a command of one source. -/
theorem unaryCommand_of_binaryCommand {i : Instr} {rd ra : VIdx} {f : Word → Word → Word}
    (h : BinaryCommand i rd ra ra f) : UnaryCommand i rd ra fun a => f a a := by
  intro s
  obtain ⟨hnext, hfault, -⟩ := h s
  exact ⟨fun hw => hnext hw hw, hfault⟩

end Sys2Proof.Proofs
end

section
/-! The statements of 40_register_capability.md. -/

namespace Sys2Proof.Proofs

open Sys2Proof.Machine Sys2Proof.Claim

/-- Settles O11: byte `k` of the little-endian integer is byte `k` of the block, so no two blocks share an integer. -/
theorem ldblkLoadsTheBlock : Obligations.LdblkLoadsTheBlock := by
  refine fun rd => ⟨decode_ldblk rd, fun s => ⟨_, exec_ldblk rd s, writeV_writesV s rd _, fun k => ?_⟩,
    fun _ _ => le128_injective, by decide⟩
  rw [writeV_vreg_same, extract_le128 s.din k.val k.isLt]

/-- Settles O12: `bytes` and `le128` are inverse, and `STBLK` changes data-out alone. -/
theorem stblkReturnsTheRegister : Obligations.StblkReturnsTheRegister := by
  refine fun ra => ⟨decode_stblk ra, fun s => ⟨fun hw => ?_, exec_unwritten_first_source rfl⟩,
    fun _ _ _ => dout_of_ldblk_stblk, fun _ _ _ _ => vreg_of_stblk_ldblk, fun _ _ _ _ _ _ => dout_eq_of_setKey⟩
  have hnext := exec_stblk_written hw
  exact ⟨_, hnext, fun _ => ⟨rfl, rfl⟩, rfl, rfl, rfl, rfl, rfl, rfl, exec_stblk_repeated hnext, _, rfl,
    fun k => getElem_bytes _ k.val k.isLt⟩

/-- Settles O13: the integer on data-in is the integer of its block. -/
theorem ldwideLoadsTheInteger : Obligations.LdwideLoadsTheInteger := by
  refine fun rd => ⟨decode_ldwide rd, fun s x hx => ⟨_, exec_ldwide rd s, ?_⟩, fun _ => rfl⟩
  rw [hx, le128_bytes]
  exact writeV_writesV s rd x

/-- Settles O14: either backend computes the contract's XOR, which is that of the lanes. -/
theorem vxorWritesTheXor : Obligations.VxorWritesTheXor := by
  intro rd ra rb
  have hxor (rb : VIdx) : BinaryCommand (.vxor rd ra rb) rd ra rb fun a b => a ^^^ b :=
    binaryCommand_of_exec (exec_vxor_contract rd ra rb)
  exact ⟨decode_vxor rd ra rb, binaryCommand_congr (fun a b => (softwareXor_eq_xor a b).symm) (hxor rb), hxor rb,
    unaryCommand_congr (fun _ => BitVec.xor_self) (unaryCommand_of_binaryCommand (hxor ra)),
    fun a b c => ⟨BitVec.xor_comm a b, BitVec.xor_assoc a b c, BitVec.xor_zero, BitVec.xor_self⟩⟩

/-- Settles O15: bit `i` of the exchanged value is bit `(i + 64) mod 128` of the source. -/
theorem swapExchangesTheLanes : Obligations.SwapExchangesTheLanes := by
  intro rd ra
  have hswap : UnaryCommand (.swap rd ra) rd ra contract.swap := unaryCommand_of_exec (exec_swap_contract rd ra)
  refine ⟨decode_swap rd ra, hswap, unaryCommand_congr swap_eq_rotateLeft hswap, fun _ _ _ => vreg_of_swap_swap,
    swap_xor, fun s t ht k => ?_⟩
  rw [exec_swap_contract] at ht
  obtain ⟨-, rfl⟩ := unary_next ht
  rw [writeV_vreg_same, byteAt_bytes_swap _ k.isLt]

/-- Settles O16: the low lane moved up over a zero lane is the value shifted up by a lane. -/
theorem mvlhMovesLowToHigh : Obligations.MvlhMovesLowToHigh := by
  intro rd ra
  have hmvlh : UnaryCommand (.mvlh rd ra) rd ra contract.mvlh := unaryCommand_of_exec (exec_mvlh_contract rd ra)
  exact ⟨decode_mvlh rd ra, hmvlh, unaryCommand_congr mvlh_eq_shiftLeft hmvlh, toPoly_mvlh⟩

/-- Settles O17: the high lane moved down under a zero lane is the value shifted down by a lane. -/
theorem mvhlMovesHighToLow : Obligations.MvhlMovesHighToLow := by
  intro rd ra
  have hmvhl : UnaryCommand (.mvhl rd ra) rd ra contract.mvhl := unaryCommand_of_exec (exec_mvhl_contract rd ra)
  exact ⟨decode_mvhl rd ra, hmvhl, unaryCommand_congr mvhl_eq_ushiftRight hmvhl, mvhl_append_mvlh⟩

/-- Settles O31: another accumulator commutes with each command of the `V` file. -/
theorem registerCommandsIgnoreTheAccumulator : Obligations.RegisterCommandsIgnoreTheAccumulator :=
  fun _ s h acc alive hi => exec_setAccumulator hi s h acc alive

/-- Settles O40: either backend's capability is the contract. -/
theorem backendsMeetTheContract : Obligations.BackendsMeetTheContract := by
  intro b
  rw [capabilityOf_eq_contract]
  exact ⟨fun _ _ => rfl, fun _ => rfl, fun _ => rfl, fun _ => rfl, fun _ _ => ⟨rfl, rfl, rfl, rfl⟩⟩

end Sys2Proof.Proofs
end

section
/-! The laws of the carry-less product (41_clmul_unit.md R50, R54), read off the product of polynomials that it is
(00_scope.md R9). -/

namespace Sys2Proof.Machine

open Polynomial

/-! ### Polynomials of bit vectors -/

theorem toPoly_eq_zero_iff {w : Nat} (v : BitVec w) : toPoly v = 0 ↔ v = 0#w := by
  rw [← toPoly_zero (w := w)]
  exact ⟨fun h => toPoly_injective h, congrArg toPoly⟩

theorem toPoly_bit {k : Nat} (hk : k < 64) : toPoly (1#64 <<< k) = X ^ k := by
  ext i
  simp only [toPoly_coeff, coeff_X_pow, BitVec.getLsbD_shiftLeft, BitVec.getLsbD_one]
  by_cases hi : i = k
  · simp [hi, hk]
  · simp [hi]
    omega

theorem toPoly_append {m n : Nat} (h : BitVec m) (l : BitVec n) :
    toPoly (h ++ l) = toPoly l + toPoly h * X ^ n := by
  ext k
  rw [coeff_add, coeff_mul_X_pow', toPoly_coeff, toPoly_coeff, toPoly_coeff, BitVec.getLsbD_append]
  by_cases hk : k < n
  · simp [hk, Nat.not_le.mpr hk]
  · simp [hk, Nat.le_of_not_lt hk]

/-! ### The ring laws -/

theorem clmul64_comm (x y : Lane) : clmul64 x y = clmul64 y x :=
  toPoly_injective (by rw [toPoly_clmul64, toPoly_clmul64, mul_comm])

theorem clmul64_xor_left (x z y : Lane) : clmul64 (x ^^^ z) y = clmul64 x y ^^^ clmul64 z y :=
  toPoly_injective (by simp only [toPoly_clmul64, toPoly_xor, add_mul])

theorem clmul64_xor_right (x y z : Lane) : clmul64 x (y ^^^ z) = clmul64 x y ^^^ clmul64 x z := by
  rw [clmul64_comm, clmul64_xor_left, clmul64_comm y, clmul64_comm z]

theorem clmul64_eq_zero_iff (x y : Lane) : clmul64 x y = 0#128 ↔ x = 0#64 ∨ y = 0#64 := by
  rw [← toPoly_eq_zero_iff, toPoly_clmul64, mul_eq_zero, toPoly_eq_zero_iff, toPoly_eq_zero_iff]

/-- The polynomial of the shifted lane is the term of R9 for a set bit `k`. -/
theorem clmul64_bit (x : Lane) {k : Nat} (hk : k < 64) : clmul64 x (1#64 <<< k) = x.setWidth 128 <<< k := by
  apply toPoly_injective
  rw [toPoly_clmul64, toPoly_bit hk]
  exact (toPoly_term x true hk.le).symm

theorem clmul64_one (x : Lane) : clmul64 x 1#64 = x.setWidth 128 := by
  simpa using clmul64_bit x (k := 0) (by omega)

theorem natDegree_clmul64 {x y : Lane} (hx : x ≠ 0#64) (hy : y ≠ 0#64) :
    (toPoly (clmul64 x y)).natDegree = (toPoly x).natDegree + (toPoly y).natDegree := by
  rw [toPoly_clmul64]
  exact natDegree_mul (mt (toPoly_eq_zero_iff x).mp hx) (mt (toPoly_eq_zero_iff y).mp hy)

/-! ### Bits of a product -/

theorem getLsbD_clmul64_high (x y : Lane) {k : Nat} (hk : 127 ≤ k) : (clmul64 x y).getLsbD k = false :=
  clmulTerms_high x y 64 k hk

theorem clmul64_lt (x y : Lane) : (clmul64 x y).toNat < 2 ^ 127 :=
  Nat.lt_pow_two_of_testBit _ fun _ hk => getLsbD_clmul64_high x y hk

/-- Over the two-element field the square of a polynomial is the polynomial at the square of `x`. -/
theorem getLsbD_clmul64_self (x : Lane) (k : Nat) :
    (clmul64 x x).getLsbD k = (decide (2 ∣ k) && x.getLsbD (k / 2)) := by
  have hsquare : toPoly (clmul64 x x) = expand (ZMod 2) 2 (toPoly x) := by
    rw [toPoly_clmul64, ZMod.expand_card, sq]
  have hcoeff := congrArg (coeff · k) hsquare
  simp only [coeff_expand two_pos, toPoly_coeff] at hcoeff
  by_cases hk : 2 ∣ k
  · by_cases hx : x.getLsbD (k / 2) <;> simpa [hk, hx] using hcoeff
  · simpa [hk] using hcoeff

/-! ### The partial multiply of the selected lanes (R50) -/

theorem pmul_contract (sel : Selector) (a b : Word) :
    contract.pmul sel a b = clmul64 (Selector.laneA sel a) (Selector.laneB sel b) := rfl

theorem laneA_xor (sel : Selector) (a b : Word) :
    Selector.laneA sel (a ^^^ b) = Selector.laneA sel a ^^^ Selector.laneA sel b := by
  cases sel with
  | ll | lh => exact lo_xor a b
  | hl | hh => exact hi_xor a b

theorem laneB_xor (sel : Selector) (a b : Word) :
    Selector.laneB sel (a ^^^ b) = Selector.laneB sel a ^^^ Selector.laneB sel b := by
  cases sel with
  | ll | hl => exact lo_xor a b
  | lh | hh => exact hi_xor a b

theorem pmul_xor_left (sel : Selector) (a c b : Word) :
    contract.pmul sel (a ^^^ c) b = contract.pmul sel a b ^^^ contract.pmul sel c b := by
  simp only [pmul_contract, laneA_xor, clmul64_xor_left]

theorem pmul_xor_right (sel : Selector) (a b c : Word) :
    contract.pmul sel a (b ^^^ c) = contract.pmul sel a b ^^^ contract.pmul sel a c := by
  simp only [pmul_contract, laneB_xor, clmul64_xor_right]

/-! ### The four lane products (R54's last row, R60) -/

/-- `(hi a * x^64 + lo a) * (hi b * x^64 + lo b)`, multiplied out. -/
theorem toPoly_mul_eq_pmul (a b : Word) :
    toPoly a * toPoly b
      = toPoly (contract.pmul .ll a b) + toPoly (contract.pmul .hl a b ^^^ contract.pmul .lh a b) * X ^ 64
        + toPoly (contract.pmul .hh a b) * X ^ 128 := by
  simp only [toPoly_lanes a, toPoly_lanes b, toPoly_xor, pmul_contract, toPoly_clmul64, Selector.laneA, Selector.laneB]
  ring

theorem toPoly_setWidth_shiftLeft (v : Word) {n : Nat} (hn : n ≤ 128) :
    toPoly (v.setWidth 256 <<< n) = toPoly v * X ^ n := by
  have hfits : ∀ k, 256 ≤ k + n → (v.setWidth 256).getLsbD k = false := fun k hk => by
    rw [BitVec.getLsbD_setWidth, BitVec.getLsbD_of_ge v k (by omega), Bool.and_false]
  rw [toPoly_shiftLeft _ _ hfits, toPoly_setWidth v (by omega)]

/-- `MVLH` and `MVHL` split the middle products between the halves and lose nothing. -/
theorem toPoly_mvlh_add_mvhl (m : Word) :
    toPoly (contract.mvlh m) + toPoly (contract.mvhl m) * X ^ 128 = toPoly m * X ^ 64 := by
  rw [← toPoly_append, mvhl_append_mvlh, toPoly_setWidth_shiftLeft m (by omega)]

theorem toPoly_shifted_products (a b : Word) :
    toPoly ((contract.pmul .ll a b).setWidth 256
        ^^^ ((contract.pmul .hl a b ^^^ contract.pmul .lh a b).setWidth 256 <<< 64)
        ^^^ ((contract.pmul .hh a b).setWidth 256 <<< 128)) = toPoly a * toPoly b := by
  rw [toPoly_xor, toPoly_xor, toPoly_setWidth _ (by omega), toPoly_setWidth_shiftLeft _ (by omega),
    toPoly_setWidth_shiftLeft _ (by omega), toPoly_mul_eq_pmul]

theorem toPoly_productHigh_append_productLow (a b : Word) :
    toPoly (productHigh contract a b ++ productLow contract a b) = toPoly a * toPoly b := by
  have hhigh : productHigh contract a b = contract.pmul .hh a b
      ^^^ contract.mvhl (contract.pmul .hl a b ^^^ contract.pmul .lh a b) := rfl
  have hlow : productLow contract a b = contract.pmul .ll a b
      ^^^ contract.mvlh (contract.pmul .hl a b ^^^ contract.pmul .lh a b) := rfl
  rw [toPoly_append, hhigh, hlow, toPoly_xor, toPoly_xor, toPoly_mul_eq_pmul, ← toPoly_mvlh_add_mvhl]
  ring

end Sys2Proof.Machine
end

section
/-! The command `PMUL` (41_clmul_unit.md R50): its words, and what it does on either backend. -/

namespace Sys2Proof.Machine

open Sys2Proof.Claim

theorem decode_pmul (rd ra rb : VIdx) (sel : Selector) :
    decode (0x5000#16 ||| at9 rd ||| at6 ra ||| at3 rb ||| sel.bits.setWidth 16) = some (.pmul rd ra rb sel) :=
  decode_of_encode (pack_eq_match_or .pmul rd ra rb sel.bits)

theorem exec_pmul_contract (rd ra rb : VIdx) (sel : Selector) (s : State) :
    exec (.pmul rd ra rb sel) s = binary (contract.pmul sel) rd ra rb s := by
  rw [exec_pmul, capability_eq_contract]

/-- R50: the product of two lanes has 127 significant bits at most. -/
theorem exec_pmul_bit127 {rd ra rb : VIdx} {sel : Selector} {s t : State}
    (h : exec (.pmul rd ra rb sel) s = .next t) : (t.vreg rd).getLsbD 127 = false := by
  rw [exec_pmul_contract] at h
  obtain ⟨-, -, rfl⟩ := binary_next h
  rw [writeV_vreg_same]
  exact getLsbD_clmul64_high _ _ le_rfl

end Sys2Proof.Machine
end

section
/-! The statements of 41_clmul_unit.md. -/

namespace Sys2Proof.Proofs

open Sys2Proof.Machine Sys2Proof.Claim

/-- Settles O38: the loop's lanes hold the bits of the terms of R9, pass by pass, and either backend's capability is
the contract. -/
theorem serialLoopComputesClmul64 : Obligations.SerialLoopComputesClmul64 := by
  refine ⟨serialMultiply_eq_clmul64, fun a b sel => ?_⟩
  rw [capabilityOf_eq_contract, capabilityOf_eq_contract]

/-- Settles O39: after `n` passes the low lane holds bits in its top `n` places alone. -/
theorem serialLoopDropsOnlyZeros : Obligations.SerialLoopDropsOnlyZeros := by
  intro x y n hn
  rw [getLsbD_serialLoop_low x y 0 n (by omega) hn.le, decide_eq_false (by omega), Bool.false_and]

theorem pmul_binaryCommand (rd ra rb : VIdx) (sel : Selector) :
    BinaryCommand (.pmul rd ra rb sel) rd ra rb (contract.pmul sel) :=
  binaryCommand_of_exec (exec_pmul_contract rd ra rb sel)

/-- Settles O18: each selector's word and lanes, the bound on a product, and its corner cases as those of a product of
polynomials. -/
theorem pmulMultipliesTheSelectedLanes : Obligations.PmulMultipliesTheSelectedLanes := by
  refine ⟨fun rd ra rb => ?_, by decide, by decide, fun x => ?_, fun x i => ?_⟩
  · have hsel (sel : Selector) := And.intro (decode_pmul rd ra rb sel) (pmul_binaryCommand rd ra rb sel)
    exact ⟨hsel .ll, hsel .hl, hsel .lh, hsel .hh, fun _ _ _ => exec_pmul_bit127⟩
  · exact ⟨(clmul64_eq_zero_iff x _).mpr (.inr rfl), (clmul64_eq_zero_iff _ x).mpr (.inl rfl), clmul64_one x,
      clmul64_comm x _ ▸ clmul64_one x⟩
  · have hodd : ¬ 2 ∣ 2 * i.val + 1 := by omega
    simp [getLsbD_clmul64_self, hodd]

/-- Settles O44: the laws of a product of polynomials over the two-element field, which has no zero divisors. -/
theorem partialMultiplyLaws : Obligations.PartialMultiplyLaws :=
  ⟨clmul64_comm, fun _ _ => ⟨clmul64_comm _ _, clmul64_comm _ _, clmul64_comm _ _⟩, fun x k => clmul64_bit x k.isLt,
    fun sel a b c => ⟨pmul_xor_left sel a c b, pmul_xor_right sel a b c, clmul64_lt _ _⟩,
    fun x y => (clmul64_eq_zero_iff x y).mp, fun _ _ => natDegree_clmul64⟩

/-- Settles O45: the product of the sums of lanes multiplied out, the middle products being split by `MVLH` and
`MVHL`. -/
theorem fourProductsMakeTheProduct : Obligations.FourProductsMakeTheProduct :=
  fun a b => ⟨toPoly_shifted_products a b, toPoly_productHigh_append_productLow a b⟩

end Sys2Proof.Proofs
end

section
/-! The reduction of R61 modulo the field polynomial (42_field_arithmetic.md R63): one step of it divides by x^64
exactly, and two by x^128. -/

namespace Sys2Proof.Machine

open Polynomial

/-! ### The reduction constant and the field polynomial (R6) -/

theorem toPoly_hi_mask : toPoly (hi mask) = X ^ 63 + X ^ 62 + X ^ 57 := by
  have hbits : hi mask = 1#64 <<< 63 ^^^ 1#64 <<< 62 ^^^ 1#64 <<< 57 := by decide
  rw [hbits, toPoly_xor, toPoly_xor, toPoly_bit (k := 63) (by omega), toPoly_bit (k := 62) (by omega),
    toPoly_bit (k := 57) (by omega)]

theorem toPoly_lo_mask : toPoly (lo mask) = 1 := by
  have hbit : lo mask = 1#64 <<< 0 := by decide
  rw [hbit, toPoly_bit (by omega), pow_zero]

theorem fieldPoly_eq_hi_mask : fieldPoly = X ^ 128 + toPoly (hi mask) * X ^ 64 + 1 := by
  unfold fieldPoly
  rw [toPoly_hi_mask]
  ring

/-- R6: `MASK` is what is left of `P` without its leading term. -/
theorem fieldPoly_eq_mask : fieldPoly = X ^ 128 + toPoly mask := by
  rw [toPoly_lanes mask, toPoly_lo_mask, fieldPoly_eq_hi_mask]
  ring

theorem degree_fieldPoly : fieldPoly.degree = (128 : ℕ) := by
  have hlt : (toPoly mask).degree < (X ^ 128 : (ZMod 2)[X]).degree := by
    rw [degree_X_pow]
    exact toPoly_degree_lt mask
  rw [fieldPoly_eq_mask, degree_add_eq_left_of_degree_lt hlt, degree_X_pow]

theorem natDegree_fieldPoly : fieldPoly.natDegree = 128 :=
  natDegree_eq_of_degree_eq_some degree_fieldPoly

/-! ### One step of the reduction (R63 step 2) -/

/-- Half of `reduce` (R61): `swap(v) xor pmul(MASK, v, HL)`. -/
def reduceStep (v : Word) : Word := contract.xor (contract.swap v) (contract.pmul .hl mask v)

theorem reduce_eq_reduceStep (v : Word) : reduce v = reduceStep (reduceStep v) := rfl

theorem toPoly_reduceStep (v : Word) :
    toPoly (reduceStep v) = toPoly (hi v) + toPoly (lo v) * X ^ 64 + toPoly (hi mask) * toPoly (lo v) := by
  have hstep : reduceStep v = ofLanes (lo v) (hi v) ^^^ clmul64 (hi mask) (lo v) := rfl
  rw [hstep, toPoly_xor, toPoly_ofLanes, toPoly_clmul64]

/-- The multiple of `P` that clears the low lane leaves an exact multiple of x^64. -/
theorem toPoly_reduceStep_mul (v : Word) :
    toPoly (reduceStep v) * X ^ 64 = toPoly v + toPoly (lo v) * fieldPoly := by
  rw [toPoly_reduceStep, toPoly_lanes v, fieldPoly_eq_hi_mask]
  linear_combination -toPoly (lo v) * (CharTwo.two_eq_zero : (2 : (ZMod 2)[X]) = 0)

theorem fmul_eq_xor_reduce (a b : Word) :
    fmul a b = productHigh contract a b ^^^ reduce (productLow contract a b) := rfl

end Sys2Proof.Machine
end

section
/-! The register values as the field of polynomials modulo `P` (42_field_arithmetic.md R63 to R66). `residue` reads a
value as R5 does; `fieldValue` is the element it stands for when `fmul` is the multiplication, which is its residue over
x^128. -/

namespace Sys2Proof.Machine

open Polynomial

/-! ### Residues modulo `P` -/

/-- The residue modulo `P` of a register value. -/
noncomputable def residue (v : Word) : AdjoinRoot fieldPoly := AdjoinRoot.mk fieldPoly (toPoly v)

/-- The residue of x. -/
noncomputable def fieldX : AdjoinRoot fieldPoly := AdjoinRoot.root fieldPoly

/-- The residue of the inverse of x. -/
noncomputable def fieldXInv : AdjoinRoot fieldPoly :=
  AdjoinRoot.mk fieldPoly (X ^ 127 + X ^ 126 + X ^ 125 + X ^ 120)

theorem mk_mul_X_pow (p : (ZMod 2)[X]) (n : ℕ) :
    AdjoinRoot.mk fieldPoly (p * X ^ n) = AdjoinRoot.mk fieldPoly p * fieldX ^ n := by
  rw [map_mul, map_pow, AdjoinRoot.mk_X, fieldX]

/-- `x * (x^127 + x^126 + x^125 + x^120) = P + 1`. -/
theorem fieldX_mul_fieldXInv : fieldX * fieldXInv = 1 := by
  rw [fieldX, fieldXInv, ← AdjoinRoot.mk_X, ← map_mul, ← map_one (AdjoinRoot.mk fieldPoly), AdjoinRoot.mk_eq_mk]
  apply dvd_of_eq
  unfold fieldPoly
  linear_combination (CharTwo.two_eq_zero : (2 : (ZMod 2)[X]) = 0)

theorem fieldX_pow_mul_fieldXInv_pow (n : ℕ) : fieldX ^ n * fieldXInv ^ n = 1 := by
  rw [← mul_pow, fieldX_mul_fieldXInv, one_pow]

theorem eq_of_mk_eq_mk_of_degree_lt {f p q : (ZMod 2)[X]} (h : AdjoinRoot.mk f p = AdjoinRoot.mk f q)
    (hp : p.degree < f.degree) (hq : q.degree < f.degree) : p = q :=
  sub_eq_zero.mp (eq_zero_of_dvd_of_degree_lt (AdjoinRoot.mk_eq_mk.mp h)
    ((degree_sub_le p q).trans_lt (max_lt hp hq)))

theorem degree_toPoly_lt_fieldPoly (v : Word) : (toPoly v).degree < fieldPoly.degree := by
  rw [degree_fieldPoly]
  exact toPoly_degree_lt v

/-- R65: a register value is the only one of its residue, `P` being of degree 128. -/
theorem residue_injective : Function.Injective residue := fun u v h =>
  toPoly_injective (eq_of_mk_eq_mk_of_degree_lt h (degree_toPoly_lt_fieldPoly u) (degree_toPoly_lt_fieldPoly v))

theorem residue_xor (u v : Word) : residue (u ^^^ v) = residue u + residue v := by
  rw [residue, toPoly_xor, map_add, residue, residue]

theorem residue_mask : residue mask = fieldX ^ 128 := by
  have hx : X ^ 128 = fieldPoly + toPoly mask := by
    rw [fieldPoly_eq_mask, add_assoc, CharTwo.add_self_eq_zero, add_zero]
  rw [fieldX, ← AdjoinRoot.mk_X, ← map_pow, hx, map_add, AdjoinRoot.mk_self, zero_add, residue]

theorem residue_reduceStep_mul (v : Word) : residue (reduceStep v) * fieldX ^ 64 = residue v := by
  rw [residue, ← mk_mul_X_pow, toPoly_reduceStep_mul, map_add, map_mul, AdjoinRoot.mk_self, mul_zero, add_zero,
    residue]

/-- R63: `reduce(v) * x^128` is congruent to `v`. -/
theorem residue_reduce_mul (v : Word) : residue (reduce v) * fieldX ^ 128 = residue v := by
  rw [reduce_eq_reduceStep, ← residue_reduceStep_mul v, ← residue_reduceStep_mul (reduceStep v)]
  ring

/-- R63: `fmul(a, b) * x^128` is congruent to `a * b`, whose halves are `low256` and `high256`. -/
theorem residue_fmul_mul (a b : Word) : residue (fmul a b) * fieldX ^ 128 = residue a * residue b := by
  have hhalves : residue a * residue b
      = residue (productLow contract a b) + residue (productHigh contract a b) * fieldX ^ 128 := by
    rw [residue, residue, ← map_mul, ← toPoly_productHigh_append_productLow, toPoly_append, map_add, mk_mul_X_pow,
      residue, residue]
  rw [hhalves, fmul_eq_xor_reduce, residue_xor, add_mul, residue_reduce_mul, add_comm]

theorem eq_of_residue_mul_fieldX_pow_eq {u v : Word} (h : residue u * fieldX ^ 128 = residue v * fieldX ^ 128) :
    u = v :=
  residue_injective ((IsUnit.of_mul_eq_one _ (fieldX_pow_mul_fieldXInv_pow 128)).mul_left_injective h)

/-- A value that times x^128 has the residue of `p` is the one value that does. -/
theorem fieldPoly_dvd_iff_eq {v : Word} {p : (ZMod 2)[X]}
    (hv : residue v * fieldX ^ 128 = AdjoinRoot.mk fieldPoly p) (r : Word) :
    fieldPoly ∣ toPoly r * X ^ 128 - p ↔ r = v := by
  rw [← AdjoinRoot.mk_eq_mk, mk_mul_X_pow, ← hv]
  exact ⟨eq_of_residue_mul_fieldX_pow_eq, fun h => h ▸ rfl⟩

/-! ### Register values as field elements -/

/-- The element a register value stands for under `fmul`: its residue times x^-128. -/
noncomputable def fieldValue (v : Word) : AdjoinRoot fieldPoly := residue v * fieldXInv ^ 128

theorem fieldValue_mul_fieldX_pow (v : Word) : fieldValue v * fieldX ^ 128 = residue v := by
  rw [fieldValue, mul_assoc, mul_comm (fieldXInv ^ 128), fieldX_pow_mul_fieldXInv_pow, mul_one]

theorem fieldValue_injective : Function.Injective fieldValue := by
  intro u v h
  apply residue_injective
  rw [← fieldValue_mul_fieldX_pow, h, fieldValue_mul_fieldX_pow]

@[simp] theorem fieldValue_xor (u v : Word) : fieldValue (u ^^^ v) = fieldValue u + fieldValue v := by
  rw [fieldValue, residue_xor, add_mul, fieldValue, fieldValue]

@[simp] theorem fieldValue_fmul (a b : Word) : fieldValue (fmul a b) = fieldValue a * fieldValue b := by
  calc fieldValue (fmul a b) = fieldValue (fmul a b) * (fieldX ^ 128 * fieldXInv ^ 128) := by
        rw [fieldX_pow_mul_fieldXInv_pow, mul_one]
    _ = residue a * residue b * fieldXInv ^ 128 * fieldXInv ^ 128 := by
        rw [← residue_fmul_mul, fieldValue]
        ring
    _ = fieldValue a * fieldValue b := by
        rw [fieldValue, fieldValue]
        ring

@[simp] theorem fieldValue_zero : fieldValue 0#128 = 0 := by
  rw [fieldValue, residue, toPoly_zero, map_zero, zero_mul]

@[simp] theorem fieldValue_mask : fieldValue mask = 1 := by
  rw [fieldValue, residue_mask, fieldX_pow_mul_fieldXInv_pow]

end Sys2Proof.Machine
end

section
/-! `P` is irreducible (42_field_arithmetic.md R66, which takes it from general knowledge): Rabin's test, its powers of
x computed by `fmul` itself. -/

namespace Sys2Proof.Machine

open Polynomial

/-! ### Rabin's test for a degree that is a power of two -/

/-- The degree `d` of an irreducible factor divides `2^(k+1)`, because the factor divides x^(2^2^(k+1)) - x; and `d` is
no smaller, because then it would divide `2^k`, and the factor x^(2^2^k) - x. -/
theorem irreducible_of_dvd_X_pow_sub_X {f : (ZMod 2)[X]} {k : ℕ} (hdegree : f.natDegree = 2 ^ (k + 1))
    (hdvd : f ∣ X ^ 2 ^ 2 ^ (k + 1) - X) (hcoprime : IsCoprime f (X ^ 2 ^ 2 ^ k - X)) : Irreducible f := by
  obtain ⟨g, hg, q, rfl⟩ := exists_irreducible_of_natDegree_pos (f := f) (by rw [hdegree]; positivity)
  have hne : g * q ≠ 0 := by
    intro h0
    rw [h0, natDegree_zero] at hdegree
    exact absurd hdegree (by positivity)
  have hfrobenius (n : ℕ) : g.natDegree ∣ n ↔ g ∣ X ^ 2 ^ n - X := by
    rw [hg.natDegree_dvd_iff_dvd_X_pow_card_pow_sub_X, Nat.card_zmod]
  have hdvd_g : g.natDegree ∣ 2 ^ (k + 1) := (hfrobenius _).mpr ((dvd_mul_right g q).trans hdvd)
  have hndvd_g : ¬ g.natDegree ∣ 2 ^ k := fun hk =>
    hg.not_isUnit (hcoprime.isUnit_of_dvd' (dvd_mul_right g q) ((hfrobenius _).mp hk))
  have hdegree_g : g.natDegree = 2 ^ (k + 1) := Nat.eq_prime_pow_of_dvd_least_prime_pow Nat.prime_two hndvd_g hdvd_g
  have hunit : IsUnit q := by
    rw [natDegree_mul (left_ne_zero_of_mul hne) (right_ne_zero_of_mul hne), hdegree_g] at hdegree
    have hdegree_q : q.natDegree = 0 := Nat.add_eq_left.mp hdegree
    exact isUnit_iff_degree_eq_zero.mpr ((degree_eq_iff_natDegree_eq (right_ne_zero_of_mul hne)).mpr hdegree_q)
  exact (irreducible_mul_isUnit hunit).mpr hg

theorem isCoprime_of_mk_mul_mk_eq_one {f p q : (ZMod 2)[X]} (h : AdjoinRoot.mk f p * AdjoinRoot.mk f q = 1) :
    IsCoprime f p := by
  rw [← map_mul, ← map_one (AdjoinRoot.mk f), AdjoinRoot.mk_eq_mk] at h
  obtain ⟨c, hc⟩ := h
  exact ⟨-c, q, by linear_combination hc⟩

/-- The test on the root of `f`: squared `deg f` times it is itself, and squared half as often it differs from itself by
a unit. -/
theorem irreducible_of_root_pow {f : (ZMod 2)[X]} {half full k : ℕ} (hhalf : half = 2 ^ k)
    (hfull : full = 2 ^ (k + 1)) (hdegree : f.natDegree = full)
    (hfixed : AdjoinRoot.root f ^ 2 ^ full = AdjoinRoot.root f) {u : AdjoinRoot f}
    (hunit : (AdjoinRoot.root f ^ 2 ^ half + AdjoinRoot.root f) * u = 1) : Irreducible f := by
  subst hhalf hfull
  obtain ⟨q, rfl⟩ := AdjoinRoot.mk_surjective u
  rw [← AdjoinRoot.mk_X, ← map_pow] at hfixed hunit
  rw [← map_add, ← CharTwo.sub_eq_add] at hunit
  exact irreducible_of_dvd_X_pow_sub_X hdegree (AdjoinRoot.mk_eq_mk.mp hfixed) (isCoprime_of_mk_mul_mk_eq_one hunit)

/-! ### The powers of x that the test asks for

`wordX` squared 64 times is `wordXPow`, and that squared 64 times is `wordX` again. -/

/-- `a` squared `n` times. -/
def squarings (n : ℕ) (a : Word) : Word := (fun b => fmul b b)^[n] a

theorem fieldValue_squarings (n : ℕ) (a : Word) : fieldValue (squarings n a) = fieldValue a ^ 2 ^ n := by
  induction n with
  | zero => rw [pow_zero, pow_one]; rfl
  | succ n ih =>
    rw [squarings, Function.iterate_succ_apply', ← squarings, fieldValue_fmul, ih, pow_succ, pow_mul, sq]

theorem squarings_add (m n : ℕ) (a : Word) : squarings (m + n) a = squarings m (squarings n a) :=
  Function.iterate_add_apply _ m n a

/-- The value that stands for x: x^129 modulo `P`. -/
def wordX : Word := 0x46000000000000000000000000000003#128

/-- The value that stands for x raised to `2^64`. -/
def wordXPow : Word := 0x56D1557EDB7B6911803EF94FE7DC7CF1#128

/-- The value that stands for the inverse of x^(2^64) + x. -/
def wordXPowInv : Word := 0x6D06D49A5FA98AC128E09EDD8A4FA93C#128

theorem toPoly_wordX : toPoly wordX = X ^ 126 + X ^ 122 + X ^ 121 + X + 1 := by
  have hbits : wordX = ofLanes (1#64 <<< 62 ^^^ 1#64 <<< 58 ^^^ 1#64 <<< 57) (1#64 <<< 1 ^^^ 1#64 <<< 0) := by decide
  rw [hbits, toPoly_ofLanes]
  simp only [toPoly_xor, toPoly_bit, Nat.reduceLT]
  ring

theorem fieldValue_wordX : fieldValue wordX = fieldX := by
  have hresidue : residue wordX = AdjoinRoot.mk fieldPoly (X ^ 129) := by
    rw [residue, AdjoinRoot.mk_eq_mk, toPoly_wordX]
    refine ⟨X + 1, ?_⟩
    unfold fieldPoly
    linear_combination -(X ^ 129 + X ^ 128 + X ^ 127) * (CharTwo.two_eq_zero : (2 : (ZMod 2)[X]) = 0)
  rw [fieldValue, hresidue, map_pow, AdjoinRoot.mk_X, ← fieldX, pow_succ', mul_assoc, fieldX_pow_mul_fieldXInv_pow,
    mul_one]

theorem squarings_wordX : squarings 64 wordX = wordXPow := by decide +kernel

theorem squarings_wordXPow : squarings 64 wordXPow = wordX := by decide +kernel

theorem fmul_wordXPow_xor : fmul (wordXPow ^^^ wordX) wordXPowInv = mask := by decide +kernel

theorem squarings_128_wordX : squarings 128 wordX = wordX := by
  rw [squarings_add 64 64, squarings_wordX, squarings_wordXPow]

theorem fieldX_pow_two_pow_64 : fieldX ^ 2 ^ 64 = fieldValue wordXPow := by
  rw [← fieldValue_wordX, ← fieldValue_squarings, squarings_wordX]

theorem fieldX_pow_two_pow_128 : fieldX ^ 2 ^ 128 = fieldX := by
  rw [← fieldValue_wordX, ← fieldValue_squarings, squarings_128_wordX]

theorem fieldX_pow_two_pow_64_add_mul : (fieldX ^ 2 ^ 64 + fieldX) * fieldValue wordXPowInv = 1 := by
  rw [fieldX_pow_two_pow_64, ← fieldValue_wordX, ← fieldValue_xor, ← fieldValue_fmul, fmul_wordXPow_xor,
    fieldValue_mask]

/-- R66's ground: `P` passes the test for degree `128 = 2^7`. -/
theorem fieldPoly_irreducible : Irreducible fieldPoly :=
  irreducible_of_root_pow (k := 6) (by norm_num) (by norm_num) natDegree_fieldPoly fieldX_pow_two_pow_128
    fieldX_pow_two_pow_64_add_mul

end Sys2Proof.Machine
end

section
/-! The laws of `fmul` and `reduce` (42_field_arithmetic.md R64, R66), read off the field of the elements that register
values stand for. -/

namespace Sys2Proof.Machine

/-! ### The laws that hold for any `P` -/

theorem fmul_comm (a b : Word) : fmul a b = fmul b a :=
  fieldValue_injective (by rw [fieldValue_fmul, fieldValue_fmul, mul_comm])

theorem fmul_assoc (a b c : Word) : fmul (fmul a b) c = fmul a (fmul b c) :=
  fieldValue_injective (by simp only [fieldValue_fmul, mul_assoc])

theorem fmul_xor_left (a b c : Word) : fmul (a ^^^ b) c = fmul a c ^^^ fmul b c :=
  fieldValue_injective (by simp only [fieldValue_fmul, fieldValue_xor, add_mul])

theorem fmul_zero (a : Word) : fmul a 0#128 = 0#128 :=
  fieldValue_injective (by rw [fieldValue_fmul, fieldValue_zero, mul_zero])

theorem fmul_mask (a : Word) : fmul a mask = a :=
  fieldValue_injective (by rw [fieldValue_fmul, fieldValue_mask, mul_one])

theorem mask_fmul (a : Word) : fmul mask a = a := by
  rw [fmul_comm, fmul_mask]

theorem residue_one : residue 1#128 = 1 := by
  have hone : 1#128 = ofLanes 0#64 (1#64 <<< 0) := by decide
  rw [residue, hone, toPoly_ofLanes, toPoly_bit (by omega), toPoly_zero, pow_zero, zero_mul, add_zero, map_one]

theorem reduce_eq_fmul_one (a : Word) : reduce a = fmul a 1#128 :=
  eq_of_residue_mul_fieldX_pow_eq (by rw [residue_reduce_mul, residue_fmul_mul, residue_one, mul_one])

theorem reduce_xor (a b : Word) : reduce (a ^^^ b) = reduce a ^^^ reduce b := by
  simp only [reduce_eq_fmul_one, fmul_xor_left]

/-! ### The laws that need `P` irreducible -/

theorem fmul_eq_zero_iff (a b : Word) : fmul a b = 0#128 ↔ a = 0#128 ∨ b = 0#128 := by
  have := AdjoinRoot.isDomain_of_prime fieldPoly_irreducible.prime
  have hzero (v : Word) : v = 0#128 ↔ fieldValue v = 0 := by
    rw [← fieldValue_zero, fieldValue_injective.eq_iff]
  rw [hzero, hzero, hzero, fieldValue_fmul, mul_eq_zero]

theorem fmul_left_injective {a : Word} (ha : a ≠ 0#128) : Function.Injective (fmul a) := by
  intro b c h
  have hzero : fmul a (b ^^^ c) = 0#128 := by
    rw [fmul_comm, fmul_xor_left, fmul_comm b, fmul_comm c, h, BitVec.xor_self]
  exact BitVec.xor_eq_zero_iff.mp (((fmul_eq_zero_iff _ _).mp hzero).resolve_left ha)

theorem exists_fmul_eq_mask {a : Word} (ha : a ≠ 0#128) : ∃ b, fmul a b = mask :=
  Finite.surjective_of_injective (fmul_left_injective ha) mask

/-- R64: only `MASK` multiplies a value other than 0 into itself. -/
theorem fmul_one_ne {a : Word} (ha : a ≠ 0#128) : fmul a 1#128 ≠ a := fun h =>
  absurd (fmul_left_injective ha (h.trans (fmul_mask a).symm)) (by decide)

end Sys2Proof.Machine
end

section
/-! The commands `FMUL` and `FADD` (42_field_arithmetic.md R60, R62): their words, and what they do on either
backend. -/

namespace Sys2Proof.Machine

open Sys2Proof.Claim

theorem decode_fmul (rd ra rb : VIdx) : decode (0x9000#16 ||| at9 rd ||| at6 ra ||| at3 rb) = some (.fmul rd ra rb) :=
  decode_of_encode (by simp [encode, pack_eq_match_or, Opcode.row])

theorem decode_fadd (rd ra rb : VIdx) : decode (0xA000#16 ||| at9 rd ||| at6 ra ||| at3 rb) = some (.fadd rd ra rb) :=
  decode_of_encode (by simp [encode, pack_eq_match_or, Opcode.row])

theorem exec_fmul_contract (rd ra rb : VIdx) (s : State) : exec (.fmul rd ra rb) s = binary fmul rd ra rb s := by
  rw [exec_fmul, capability_eq_contract]
  rfl

theorem exec_fadd_contract (rd ra rb : VIdx) (s : State) :
    exec (.fadd rd ra rb) s = binary contract.xor rd ra rb s := by
  rw [exec_fadd, capability_eq_contract]

/-- The sequence of R61 spelled on lanes is the model's. -/
theorem reduceValue_eq_reduce (v : Word) : reduceValue v = reduce v := by
  have hmask : hi mask = 0xC200000000000000#64 := by decide
  rw [reduceValue, ← hmask]
  rfl

/-- The sequence of R60 spelled on lanes is the model's. -/
theorem fmulValue_eq_fmul (a b : Word) : fmulValue a b = fmul a b := by
  rw [fmulValue, reduceValue_eq_reduce]
  rfl

end Sys2Proof.Machine
end

section
/-! Straight-line programs of commands that write the `V` file: the state such a program leaves is that of its commands
applied in order, provided each reads registers that are written by then. -/

namespace Sys2Proof.Machine

/-- A command with the block the host presents beside it. -/
abbrev Presented := Instr × Block

/-- The event by which the host presents it. -/
def Presented.event (c : Presented) : HostEvent := .command (encode c.1) c.2

/-! ### One command -/

/-- What a command with a destination writes there, from the registers and the block on data-in; 0 for the commands
that have none. -/
def writtenValue (v : VIdx → Word) (din : Block) : Instr → Word
  | .ldblk _ | .ldwide _ => le128 din
  | .vxor _ ra rb | .fadd _ ra rb => v ra ^^^ v rb
  | .pmul _ ra rb sel => contract.pmul sel (v ra) (v rb)
  | .swap _ ra => contract.swap (v ra)
  | .mvlh _ ra => contract.mvlh (v ra)
  | .mvhl _ ra => contract.mvhl (v ra)
  | .fmul _ ra rb => fmul (v ra) (v rb)
  | .stblk _ | .anew | .ainput | .achain | .aresult => 0#128

theorem exec_of_destination {i : Instr} {rd : VIdx} {s : State} (hd : destination i = some rd)
    (hs : ∀ r ∈ sources i, s.isWritten r = true) :
    exec i s = .next (s.writeV rd (writtenValue s.vreg s.din i)) := by
  cases i with
  | stblk | anew | ainput | achain | aresult => cases hd
  | ldblk | ldwide => cases hd; rfl
  | vxor | pmul | fmul | fadd =>
    cases hd
    simp only [sources, List.forall_mem_cons] at hs
    obtain ⟨ha, hb, -⟩ := hs
    simp only [exec_vxor_contract, exec_pmul_contract, exec_fmul_contract, exec_fadd_contract, binary_written ha hb]
    rfl
  | swap | mvlh | mvhl =>
    cases hd
    simp only [sources, List.forall_mem_cons] at hs
    obtain ⟨ha, -⟩ := hs
    simp only [exec_swap_contract, exec_mvlh_contract, exec_mvhl_contract, unary_written ha]
    rfl

/-! ### The `V` file after a write -/

theorem writeV_vreg (s : State) (rd : VIdx) (x : Word) : (s.writeV rd x).vreg = Function.update s.vreg rd x :=
  Function.eq_update_iff.mpr ⟨writeV_vreg_same s rd x, fun _ hj => writeV_vreg_other s x hj⟩

theorem writeV_isWritten (s : State) (rd : VIdx) (x : Word) :
    (s.writeV rd x).isWritten = Function.update s.isWritten rd true :=
  Function.eq_update_iff.mpr ⟨writeV_isWritten_same s rd x, fun _ hj => writeV_isWritten_other s x hj⟩

theorem writeV_isWritten_of_isWritten {s : State} {r : VIdx} (h : s.isWritten r = true) (rd : VIdx) (x : Word) :
    (s.writeV rd x).isWritten r = true := by
  rw [writeV_isWritten, Function.update_apply, h, ite_self]

/-! ### The state after one command of the host's -/

/-- The state after a command, taken from the host, has written its destination; the same state where it has none. -/
def State.afterCommand (s : State) (c : Presented) : State :=
  match destination c.1 with
  | some rd => (s.takeCommand c.2 s.pending.tail).writeV rd (writtenValue s.vreg c.2 c.1)
  | none => s

theorem afterCommand_of_destination {c : Presented} {rd : VIdx} (hd : destination c.1 = some rd) (s : State) :
    s.afterCommand c = (s.takeCommand c.2 s.pending.tail).writeV rd (writtenValue s.vreg c.2 c.1) := by
  rw [State.afterCommand, hd]

theorem afterCommand_frame (s : State) (c : Presented) :
    (s.afterCommand c).accH = s.accH ∧ (s.afterCommand c).accS = s.accS ∧ (s.afterCommand c).live = s.live
      ∧ (s.afterCommand c).cfg = s.cfg := by
  rw [State.afterCommand]
  split
  · exact ⟨rfl, rfl, rfl, rfl⟩
  · exact ⟨rfl, rfl, rfl, rfl⟩

theorem step_presented {c : Presented} {rd : VIdx} {s : State} {rest : List HostEvent} (hc : s.cfg.wellFormed = true)
    (hp : s.pending = c.event :: rest) (hd : destination c.1 = some rd)
    (hs : ∀ r ∈ sources c.1, s.isWritten r = true) : step s = .next (s.afterCommand c) := by
  rw [step_command hc hp (decode_encode c.1), exec_of_destination (s := s.takeCommand c.2 rest) hd hs,
    afterCommand_of_destination hd, hp]
  rfl

/-! ### A program -/

/-- The registers after a command. -/
def registersAfter (v : VIdx → Word) (c : Presented) : VIdx → Word :=
  match destination c.1 with
  | some rd => Function.update v rd (writtenValue v c.2 c.1)
  | none => v

/-- The marks of R11 after a command. -/
def marksAfter (w : VIdx → Bool) (c : Presented) : VIdx → Bool :=
  match destination c.1 with
  | some rd => Function.update w rd true
  | none => w

/-- Every command writes a register and reads only registers of `ws` or that a command before it wrote. -/
def straightLine (ws : List VIdx) : List Presented → Bool
  | [] => true
  | c :: p =>
    match destination c.1 with
    | some rd => (sources c.1).all (· ∈ ws) && straightLine (rd :: ws) p
    | none => false

theorem vreg_foldl_afterCommand (p : List Presented) (s : State) :
    (p.foldl State.afterCommand s).vreg = p.foldl registersAfter s.vreg := by
  refine (List.foldl_hom State.vreg fun t c => ?_).symm
  rw [State.afterCommand, registersAfter]
  split
  · rw [writeV_vreg]
    rfl
  · rfl

theorem isWritten_foldl_afterCommand (p : List Presented) (s : State) :
    (p.foldl State.afterCommand s).isWritten = p.foldl marksAfter s.isWritten := by
  refine (List.foldl_hom State.isWritten fun t c => ?_).symm
  rw [State.afterCommand, marksAfter]
  split
  · rw [writeV_isWritten]
    rfl
  · rfl

/-- A program of the `V` file leaves the accumulator and the configuration as they are (R40). -/
theorem foldl_afterCommand_frame (p : List Presented) (s : State) :
    (p.foldl State.afterCommand s).accH = s.accH ∧ (p.foldl State.afterCommand s).accS = s.accS
      ∧ (p.foldl State.afterCommand s).live = s.live ∧ (p.foldl State.afterCommand s).cfg = s.cfg := by
  induction p generalizing s with
  | nil => exact ⟨rfl, rfl, rfl, rfl⟩
  | cons c p ih =>
    obtain ⟨hH, hS, hlive, hcfg⟩ := afterCommand_frame s c
    rw [List.foldl_cons, ← hH, ← hS, ← hlive, ← hcfg]
    exact ih _

/-- The commands run one by one to the end, each taking its event. -/
theorem runSteps_straightLine {ws : List VIdx} {p : List Presented} {s : State} {rest : List HostEvent}
    (hc : s.cfg.wellFormed = true) (hp : s.pending = p.map Presented.event ++ rest)
    (hws : ∀ r ∈ ws, s.isWritten r = true) (hline : straightLine ws p = true) :
    runSteps p.length s = .next (p.foldl State.afterCommand s)
      ∧ (p.foldl State.afterCommand s).pending = rest := by
  induction p generalizing ws s with
  | nil => exact ⟨rfl, hp⟩
  | cons c p ih =>
    rw [straightLine] at hline
    split at hline
    case h_2 => cases hline
    case h_1 rd hd =>
      rw [Bool.and_eq_true, List.all_eq_true] at hline
      obtain ⟨hsources, hline⟩ := hline
      have hread : ∀ r ∈ sources c.1, s.isWritten r = true := fun r hr => hws r (by simpa using hsources r hr)
      rw [List.length_cons, runSteps_next _ (step_presented hc hp hd hread), List.foldl_cons]
      refine ih (ws := rd :: ws) ?_ ?_ ?_ hline
      · rwa [afterCommand_of_destination hd]
      · rw [afterCommand_of_destination hd, writeV_pending, takeCommand_pending, hp]
        rfl
      · rw [afterCommand_of_destination hd, List.forall_mem_cons]
        exact ⟨writeV_isWritten_same _ rd _,
          fun r hr => writeV_isWritten_of_isWritten (s := s.takeCommand c.2 _) (hws r hr) rd _⟩

end Sys2Proof.Machine
end

section
/-! The expansion of `FMUL` by commands of the register capability (42_field_arithmetic.md R67) as a straight-line
program. -/

namespace Sys2Proof.Machine

open Sys2Proof.Claim

/-- The seventeen commands of R67, with `d` on data-in where none is taken. -/
def expansionProgram (d : Block) : List Presented :=
  [(.pmul 2 0 1 .ll, d), (.pmul 3 0 1 .hl, d), (.pmul 4 0 1 .lh, d), (.pmul 5 0 1 .hh, d), (.vxor 3 3 4, d),
   (.mvlh 4 3, d), (.mvhl 3 3, d), (.vxor 2 2 4, d), (.vxor 5 5 3, d), (.ldwide 6, bytes mask), (.pmul 3 6 2 .hl, d),
   (.swap 4 2, d), (.vxor 4 4 3, d), (.pmul 3 6 4 .hl, d), (.swap 4 4, d), (.vxor 4 4 3, d), (.vxor 2 5 4, d)]

theorem expansion_eq_map (d : Block) : expansion d = (expansionProgram d).map Presented.event := by
  have hmask : bytes mask = #v[0x01, 0, 0, 0, 0, 0, 0, 0, 0, 0, 0, 0, 0, 0, 0, 0xC2] := by decide
  rw [expansionProgram, hmask]
  rfl

theorem expansionProgram_straightLine (d : Block) : straightLine [0, 1] (expansionProgram d) = true := rfl

/-- R67's last column: the commands are the lines of R60 and R61, one for one. -/
theorem expansionProgram_registers (d : Block) (v : VIdx → Word) :
    (expansionProgram d).foldl registersAfter v 2 = fmul (v 0) (v 1) := rfl

theorem expansionProgram_keeps (d : Block) (v : VIdx → Word) (w : VIdx → Bool) {j : VIdx}
    (hj : j = 0 ∨ j = 1 ∨ j = 7) :
    (expansionProgram d).foldl registersAfter v j = v j ∧ (expansionProgram d).foldl marksAfter w j = w j := by
  obtain rfl | rfl | rfl := hj <;> exact ⟨rfl, rfl⟩

theorem expansionProgram_writes (d : Block) (w : VIdx → Bool) {j : VIdx} (h0 : j ≠ 0) (h1 : j ≠ 1) (h7 : j ≠ 7) :
    (expansionProgram d).foldl marksAfter w j = true := by
  have hj : j = 2 ∨ j = 3 ∨ j = 4 ∨ j = 5 ∨ j = 6 := by revert j; decide
  obtain rfl | rfl | rfl | rfl | rfl := hj <;> rfl

end Sys2Proof.Machine
end

section
/-! The statements of 42_field_arithmetic.md. -/

namespace Sys2Proof.Proofs

open Sys2Proof.Machine Sys2Proof.Claim

/-- Settles O46: `fmul` and `reduce` divide by x^128 modulo `P`, and x^128 may be cancelled there. -/
theorem fmulIsTheMontgomeryProduct : Obligations.FmulIsTheMontgomeryProduct := by
  refine ⟨fun a b => fieldPoly_dvd_iff_eq ?_, fun v => fieldPoly_dvd_iff_eq (residue_reduce_mul v), by decide +kernel⟩
  rw [residue_fmul_mul, map_mul, residue, residue]

/-- Settles O49: `P` is irreducible, so the field has no zero divisors, and `fmul a` is injective on the finitely many
values, hence onto. -/
theorem fieldHasInverses : Obligations.FieldHasInverses := by
  refine ⟨fun a b => (fmul_eq_zero_iff a b).mp, fun a ha => ?_⟩
  obtain ⟨b, hb⟩ := exists_fmul_eq_mask ha
  exact ⟨b, hb, fun b' hb' => fmul_left_injective ha (hb'.trans hb.symm)⟩

/-- Settles O50: the seventeen commands are a straight-line program from `V0` and `V1`, and running it on the registers
spells out `fmul`. -/
theorem fmulEqualsItsExpansion : Obligations.FmulEqualsItsExpansion := by
  intro s d rest hc h0 h1
  have hwritten : ∀ r ∈ [0, 1], s.isWritten r = true := by simp [h0, h1]
  obtain ⟨hrun, hpending⟩ := runSteps_straightLine (p := expansionProgram d)
    (s := presenting s (expansion d ++ rest)) hc (congrArg (· ++ rest) (expansion_eq_map d)) hwritten
    (expansionProgram_straightLine d)
  obtain ⟨hH, hS, hlive, hcfg⟩ := foldl_afterCommand_frame (expansionProgram d) (presenting s (expansion d ++ rest))
  refine ⟨_, hrun, hpending, fun j hj => ?_, fun j hj0 hj1 hj7 => ?_, hH, hS, hlive, hcfg,
    fun u rd ra rb ha hb hra hrb => ?_⟩
  · rw [vreg_foldl_afterCommand, isWritten_foldl_afterCommand]
    exact expansionProgram_keeps d s.vreg s.isWritten hj
  · rw [isWritten_foldl_afterCommand]
    exact expansionProgram_writes d s.isWritten hj0 hj1 hj7
  · refine ⟨_, (exec_fmul_contract rd ra rb u).trans (binary_written ha hb), ?_⟩
    rw [writeV_vreg_same, hra, hrb, vreg_foldl_afterCommand]
    exact (expansionProgram_registers d s.vreg).symm

/-- Settles O19: the sequence spelled on lanes is the model's, either backend computes it, and its corner cases are laws
of the field. -/
theorem fmulRunsTheSourceSequence : Obligations.FmulRunsTheSourceSequence := by
  refine ⟨fun rd ra rb => ⟨decode_fmul rd ra rb, binaryCommand_congr (fun a b => (fmulValue_eq_fmul a b).symm)
    (binaryCommand_of_exec (exec_fmul_contract rd ra rb))⟩, fun a => ?_,
    by decide +kernel, by decide +kernel, by decide +kernel⟩
  simp only [fmulValue_eq_fmul]
  exact ⟨fmul_zero a, fmul_comm a _ ▸ fmul_zero a, fmul_mask a, fmul_one_ne⟩

/-- Settles O20: either backend computes the contract's XOR for both commands. -/
theorem faddIsTheXor : Obligations.FaddIsTheXor := by
  intro rd ra rb
  have hzero : le128 (Vector.replicate 16 0#8) = 0#128 := by decide
  exact ⟨decode_fadd rd ra rb, binaryCommand_of_exec (exec_fadd_contract rd ra rb), fun _ => rfl,
    fun a => ⟨by rw [hzero, BitVec.xor_zero], BitVec.xor_self⟩⟩

/-- Settles O47: `MASK` stands for the 1 of the field, where only 1 multiplies an element other than 0 into itself. -/
theorem maskIsTheIdentity : Obligations.MaskIsTheIdentity := by
  refine ⟨fun a => ⟨mask_fmul a, fmul_mask a, ?_, fun ha => ?_⟩, by decide⟩
  · rw [fmul_comm, reduce_eq_fmul_one]
  · rw [fmul_comm]
    exact fmul_one_ne ha

/-- Settles O48, by the laws of the ring of residues, which register values stand for one to one. -/
theorem fieldLaws : Obligations.FieldLaws := fun a b c =>
  ⟨fmul_comm a b, fmul_assoc a b c, fmul_xor_left a b c, fmul_zero a, fmul_mask a, reduce_xor a b,
    reduce_eq_fmul_one a⟩

end Sys2Proof.Proofs
end

section
/-! The commands of the accumulator (43_accumulator.md R70 to R74): their words, and the state each leaves on either
backend. -/

namespace Sys2Proof.Machine

open Sys2Proof.Claim

/-! ### Their words (R33) -/

theorem decode_anew : decode 0xB000#16 = some .anew := decode_of_encode rfl

theorem decode_ainput : decode 0xC000#16 = some .ainput := decode_of_encode rfl

theorem decode_achain : decode 0xD000#16 = some .achain := decode_of_encode rfl

theorem decode_aresult : decode 0xE000#16 = some .aresult := decode_of_encode rfl

/-! ### What they do -/

theorem exec_anew (s : State) : exec .anew s = .next (s.setAccumulator (le128 s.din) 0#128 true) := rfl

/-- R71 on the values of the contract, which either backend computes. -/
theorem foldBlock_eq_setAccumulator (s : State) (x : Word) :
    s.foldBlock x = s.setAccumulator s.accH (fmul (s.accS ^^^ x) s.accH) s.live := by
  rw [State.foldBlock, capability_eq_contract]
  rfl

@[simp] theorem foldBlock_accS (s : State) (x : Word) : (s.foldBlock x).accS = fmul (s.accS ^^^ x) s.accH := by
  rw [foldBlock_eq_setAccumulator, setAccumulator_accS]

theorem exec_ainput_live {s : State} (h : s.live = true) : exec .ainput s = .next (s.foldBlock (le128 s.din)) :=
  withLive_live _ h

/-- R72: the state change of `AINPUT`, in every state. -/
theorem exec_achain_eq_ainput (s : State) : exec .achain s = exec .ainput s := rfl

theorem exec_aresult_live {s : State} (h : s.live = true) :
    exec .aresult s = .next ((s.returnBlock (bytes s.accS)).setAccumulator 0#128 0#128 false) :=
  withLive_live _ h

/-- R74: what needs a live accumulator is refused where there is none. -/
theorem exec_dead {i : Instr} {s : State} (hi : needsLive i = true) (h : s.live = false) :
    exec i s = .refused .noLiveAccumulator := by
  cases i with
  | ainput | achain | aresult => exact withLive_dead _ h
  | ldblk | stblk | ldwide | vxor | pmul | swap | mvlh | mvhl | fmul | fadd | anew => cases hi

theorem setAccumulator_writesAccumulator (s : State) (h acc : Word) (alive : Bool) :
    WritesAccumulator s (s.setAccumulator h acc alive) h acc alive s.dout :=
  ⟨rfl, rfl, rfl, rfl, fun _ => ⟨rfl, rfl⟩, rfl, rfl, rfl⟩

/-- R71, with the product in the lane-by-lane spelling of the statements. -/
theorem foldBlock_writesAccumulator {s : State} (h : s.live = true) (x : Word) :
    WritesAccumulator s (s.foldBlock x) s.accH (fmulValue (s.accS ^^^ x) s.accH) true s.dout := by
  rw [foldBlock_eq_setAccumulator, fmulValue_eq_fmul, h]
  exact setAccumulator_writesAccumulator s _ _ true

/-! ### Blocks and their integers (R2) -/

theorem le128_inj {b b' : Block} : le128 b = le128 b' ↔ b = b' := ⟨le128_injective, congrArg le128⟩

theorem bytes_inj {u v : Word} : bytes u = bytes v ↔ u = v :=
  (Function.LeftInverse.injective le128_bytes).eq_iff

theorem le128_zero_block : le128 (Vector.replicate 16 0#8) = 0#128 := by decide

theorem bytes_zero : bytes 0#128 = Vector.replicate 16 0#8 := by
  rw [← le128_zero_block, bytes_le128]

end Sys2Proof.Machine
end

section
/-! What a hash computes (43_accumulator.md R75, R78): the recurrence for `S`, its closed form, and the two orders of two
blocks. -/

namespace Sys2Proof.Machine

open Sys2Proof.Claim

/-- `S_n` of R75 from `S_0 = acc`: `S_i = (S_(i-1) xor X_i) * H`. -/
def foldWords (h acc : Word) (xs : List Word) : Word := xs.foldl (fun a x => fmul (a ^^^ x) h) acc

theorem foldWords_cons (h acc x : Word) (xs : List Word) :
    foldWords h acc (x :: xs) = foldWords h (fmul (acc ^^^ x) h) xs := rfl

/-- R75's closed form: the start value is multiplied once for each block that follows, as each block is. -/
theorem foldWords_eq_hornerSum (h acc : Word) (xs : List Word) :
    foldWords h acc xs = fmul acc (fieldPower h xs.length) ^^^ hornerSum h xs := by
  induction xs generalizing acc with
  | nil => exact (BitVec.xor_zero.trans (fmul_mask acc)).symm
  | cons x xs ih =>
    have hmul : fmul (fmul (acc ^^^ x) h) (fieldPower h xs.length)
        = fmul acc (fieldPower h (xs.length + 1)) ^^^ fmul x (fieldPower h (xs.length + 1)) := by
      rw [fmul_assoc, fmul_comm h, ← fieldPower, fmul_xor_left]
    rw [foldWords_cons, ih, hmul, BitVec.xor_assoc, hornerSum, List.length_cons]

theorem foldWords_zero (h : Word) (xs : List Word) : foldWords h 0#128 xs = hornerSum h xs := by
  rw [foldWords_eq_hornerSum, fmul_comm, fmul_zero, BitVec.zero_xor]

/-- R79: with the zero key every term is a product with 0. -/
theorem hornerSum_zero_key (xs : List Word) : hornerSum 0#128 xs = 0#128 := by
  induction xs with
  | nil => rfl
  | cons x xs ih => rw [hornerSum, fieldPower, fmul_zero, fmul_zero, ih, BitVec.xor_zero]

/-- R78's identity: `(a H² + b H) + (b H² + a H) = (a + b) H (H + 1)`, where `MASK` is the 1 of the field. -/
theorem hornerSum_pair_xor_swapped (h a b : Word) :
    hornerSum h [a, b] ^^^ hornerSum h [b, a] = fmul (fmul (a ^^^ b) h) (h ^^^ mask) := by
  apply fieldValue_injective
  simp only [hornerSum, fieldPower, List.length_cons, List.length_nil, fieldValue_xor, fieldValue_fmul,
    fieldValue_zero, fieldValue_mask]
  ring

/-- R78: the field has no zero divisors, so the orders agree exactly where one factor of the identity is 0. -/
theorem hornerSum_pair_eq_swapped_iff (h a b : Word) :
    hornerSum h [a, b] = hornerSum h [b, a] ↔ a = b ∨ h = 0#128 ∨ h = mask := by
  rw [← BitVec.xor_eq_zero_iff, hornerSum_pair_xor_swapped, fmul_eq_zero_iff, fmul_eq_zero_iff,
    BitVec.xor_eq_zero_iff, BitVec.xor_eq_zero_iff, or_assoc]

end Sys2Proof.Machine
end

section
/-! A whole hash as a run (43_accumulator.md R75): `ANEW`, the input commands one by one, `ARESULT`. -/

namespace Sys2Proof.Machine

open Sys2Proof.Claim

/-- `t` ends a hash that ran from `s`: it returns the block of `r`, no accumulator is left, and the `V` file is that of
`s`. -/
def EndsHash (s t : State) (r : Word) : Prop :=
  t.dout = some (bytes r) ∧ t.accH = 0#128 ∧ t.accS = 0#128 ∧ t.live = false ∧ SameV s t

variable {s : State} {rest : List HostEvent} (hc : s.cfg.wellFormed = true)
include hc

theorem step_anew {h : Block} (hp : s.pending = .command 0xB000#16 h :: rest) :
    step s = .next ((s.takeCommand h rest).setAccumulator (le128 h) 0#128 true) :=
  step_command hc hp decode_anew

/-- Either input command folds the block that comes with it. -/
theorem step_inputEvent {x : Bool × Block} (hp : s.pending = inputEvent x :: rest) (hl : s.live = true) :
    step s = .next ((s.takeCommand x.2 rest).foldBlock (le128 x.2)) := by
  have hexec : exec .ainput (s.takeCommand x.2 rest) = .next ((s.takeCommand x.2 rest).foldBlock (le128 x.2)) :=
    exec_ainput_live hl
  obtain ⟨chain, block⟩ := x
  cases chain with
  | false => exact (step_command hc hp decode_ainput).trans hexec
  | true => exact (step_command hc hp decode_achain).trans hexec

theorem step_aresult {d : Block} (hp : s.pending = .command 0xE000#16 d :: rest) (hl : s.live = true) :
    step s = .next (((s.takeCommand d rest).returnBlock (bytes s.accS)).setAccumulator 0#128 0#128 false) :=
  (step_command hc hp decode_aresult).trans (exec_aresult_live hl)

/-- From a live accumulator, the inputs in order and then `ARESULT` return what R75's recurrence makes of `S`. -/
theorem runSteps_inputs_aresult {xs : List (Bool × Block)} {d : Block} (hl : s.live = true)
    (hp : s.pending = xs.map inputEvent ++ [.command 0xE000#16 d]) :
    ∃ t, runSteps (xs.length + 1) s = .next t
      ∧ EndsHash s t (foldWords s.accH s.accS (xs.map fun x => le128 x.2)) := by
  induction xs generalizing s with
  | nil => exact ⟨_, runSteps_next 0 (step_aresult hc hp hl), rfl, rfl, rfl, rfl, fun _ => ⟨rfl, rfl⟩⟩
  | cons x xs ih =>
    obtain ⟨t, hrun, hend⟩ := ih
      (s := (s.takeCommand x.2 (xs.map inputEvent ++ [.command 0xE000#16 d])).foldBlock (le128 x.2)) hc hl rfl
    rw [foldBlock_accS] at hend
    exact ⟨t, (runSteps_next _ (step_inputEvent hc hp hl)).trans hrun, hend⟩

/-- R75: a whole hash returns the Horner polynomial of its blocks. -/
theorem runSteps_hashEvents (h d : Block) (xs : List (Bool × Block)) :
    ∃ t, runSteps (xs.length + 2) (presenting s (hashEvents h xs d)) = .next t
      ∧ EndsHash s t (hornerSum (le128 h) (xs.map fun x => le128 x.2)) := by
  obtain ⟨t, hrun, hend⟩ := runSteps_inputs_aresult (xs := xs) (d := d)
    (s := (s.takeCommand h (xs.map inputEvent ++ [.command 0xE000#16 d])).setAccumulator (le128 h) 0#128 true)
    hc rfl rfl
  rw [setAccumulator_accS, foldWords_zero] at hend
  have hnew := step_anew (s := presenting s (hashEvents h xs d)) hc rfl
  exact ⟨t, (runSteps_next _ hnew).trans hrun, hend⟩

end Sys2Proof.Machine
end

section
/-! The statements of 43_accumulator.md. -/

namespace Sys2Proof.Proofs

open Sys2Proof.Machine Sys2Proof.Claim

/-- Settles O26: the run folds the blocks into `S` one by one, and that recurrence has R75's closed form. -/
theorem hashIsTheHornerPolynomial : Obligations.HashIsTheHornerPolynomial :=
  fun _ h d xs hc => runSteps_hashEvents hc h d xs

/-- Settles O27: the closed form names the key and the blocks only. -/
theorem hashDependsOnKeyAndBlocksOnly : Obligations.HashDependsOnKeyAndBlocksOnly := by
  intro s s' h d d' xs xs' hc hc' hblocks
  obtain ⟨t, hrun, hdout, -⟩ := runSteps_hashEvents hc h d xs
  obtain ⟨t', hrun', hdout', -⟩ := runSteps_hashEvents hc' h d' xs'
  have hwords : (xs.map fun x => le128 x.2) = xs'.map fun x => le128 x.2 := by
    simpa [Function.comp_def] using congrArg (List.map le128) hblocks
  refine ⟨t, t', hrun, hrun', by rw [hdout, hdout', hwords], fun hzero => ?_⟩
  rw [hdout, hzero, le128_zero_block, hornerSum_zero_key, bytes_zero]

/-- Settles O28: the two closed forms differ by a product, which is 0 exactly where one of its factors is. -/
theorem blockOrderIdentity : Obligations.BlockOrderIdentity := by
  intro s h b1 b2 d hc
  obtain ⟨t, hrun, hdout, -⟩ := runSteps_hashEvents hc h d [(false, b1), (false, b2)]
  obtain ⟨t', hrun', hdout', -⟩ := runSteps_hashEvents hc h d [(false, b2), (false, b1)]
  refine ⟨t, t', _, _, hrun, hrun', hdout, hdout', ?_, ?_⟩
  · rw [le128_bytes, le128_bytes]
    exact hornerSum_pair_xor_swapped _ _ _
  · rw [bytes_inj, ← le128_inj (b := b1)]
    exact hornerSum_pair_eq_swapped_iff _ _ _

/-- Settles O22: either backend computes `fmul`, which 0 annihilates and `MASK` leaves alone. -/
theorem ainputFoldsOneBlock : Obligations.AinputFoldsOneBlock := by
  refine ⟨decode_ainput, fun s hl => ⟨_, exec_ainput_live hl, foldBlock_writesAccumulator hl _,
    fun hdin => ?_, fun hH => ?_, fun hH => ?_⟩, fun _ => exec_dead rfl⟩
  · rw [foldBlock_accS, hdin, le128_zero_block, BitVec.xor_zero, fmulValue_eq_fmul]
  · rw [foldBlock_accS, hH, fmul_zero]
  · rw [foldBlock_accS, hH]
    exact fmul_mask _

/-- Settles O23: `ACHAIN` is `AINPUT` in every state. -/
theorem achainFoldsOneBlock : Obligations.AchainFoldsOneBlock :=
  ⟨decode_achain,
    fun s hl => ⟨_, (exec_achain_eq_ainput s).trans (exec_ainput_live hl), foldBlock_writesAccumulator hl _⟩,
    fun _ => exec_dead rfl, exec_achain_eq_ainput⟩

/-- Settles O24: the block of `S` is returned as the accumulator is zeroed, which leaves none to return again. -/
theorem aresultReturnsAndErases : Obligations.AresultReturnsAndErases := by
  refine ⟨decode_aresult, fun s hl => ⟨_, exec_aresult_live hl, ?_, exec_dead rfl rfl⟩,
    fun _ => exec_dead rfl, fun s t h => ?_⟩
  · exact setAccumulator_writesAccumulator (s.returnBlock (bytes s.accS)) 0#128 0#128 false
  · cases h
    exact ⟨_, exec_aresult_live rfl, congrArg some bytes_zero⟩

/-- Settles O25: the four commands by their effects, the commands of the `V` file because another `LIVE` commutes with
them, and the reset event because it is a step. -/
theorem lifecycleTable : Obligations.LifecycleTable := by
  refine ⟨fun s => ⟨_, exec_anew s, rfl, rfl, rfl⟩, ?_, ?_,
    fun s hl => ⟨_, exec_aresult_live hl, rfl⟩, fun i s t hi h => ⟨?_, fun alive => ?_⟩, fun s t rest hp h => ?_⟩
  · rintro i s (rfl | rfl | rfl)
    · exact exec_dead rfl
    · exact exec_dead rfl
    · exact exec_dead rfl
  · rintro i s (rfl | rfl) hl
    · exact ⟨_, exec_ainput_live hl, hl⟩
    · exact ⟨_, (exec_achain_eq_ainput s).trans (exec_ainput_live hl), hl⟩
  · obtain ⟨-, hacc, -⟩ := commandsWriteOnlyWhatTheyName i s t h
    exact (hacc hi).2
  · have hother := exec_setAccumulator hi s s.accH s.accS alive
    rw [h] at hother
    exact ⟨_, hother, rfl⟩
  · obtain ⟨hc, -⟩ := step_next_cases h
    rw [step_hostReset hc hp] at h
    cases h
    rfl

/-- Settles O21: `ANEW` looks at neither `LIVE` nor an accumulator before it. -/
theorem anewStartsAnAccumulator : Obligations.AnewStartsAnAccumulator :=
  ⟨decode_anew, fun s => ⟨_, exec_anew s, setAccumulator_writesAccumulator s _ _ true⟩⟩

end Sys2Proof.Proofs
end

section
/-! The order in which a command stops (60_exceptions.md R83; 40_register_capability.md R40): its sources are read one
after another, the first that was never written is the one that faults, and with all of them written, and an accumulator
where it needs one, it completes. -/

namespace Sys2Proof.Machine

/-- A read, and then what it goes on to, faults on the first unwritten register of a list: the register read, or the
first unwritten one of the rest. -/
theorem withSource_find? {ra r : VIdx} {rs : List VIdx} {s : State} {k : Word → Result}
    (h : (ra :: rs).find? (fun r => !s.isWritten r) = some r)
    (hk : rs.find? (fun r => !s.isWritten r) = some r → k (s.vreg ra) = .fault (.unwrittenRegister r)) :
    withSource ra s k = .fault (.unwrittenRegister r) := by
  cases hw : s.isWritten ra with
  | true =>
    rw [withSource_written k hw]
    rw [List.find?_cons_of_neg (by simp [hw])] at h
    exact hk h
  | false =>
    rw [withSource_unwritten k hw]
    rw [List.find?_cons_of_pos (by simp [hw])] at h
    cases h
    rfl

theorem unary_first_unwritten {f : Word → Word} {rd ra r : VIdx} {s : State}
    (h : [ra].find? (fun r => !s.isWritten r) = some r) : unary f rd ra s = .fault (.unwrittenRegister r) :=
  withSource_find? h nofun

theorem binary_first_unwritten {f : Word → Word → Word} {rd ra rb r : VIdx} {s : State}
    (h : [ra, rb].find? (fun r => !s.isWritten r) = some r) :
    binary f rd ra rb s = .fault (.unwrittenRegister r) :=
  withSource_find? h fun hrb => withSource_find? hrb nofun

theorem exec_first_unwritten {i : Instr} {r : VIdx} {s : State}
    (h : (sources i).find? (fun r => !s.isWritten r) = some r) : exec i s = .fault (.unwrittenRegister r) := by
  cases i with
  | ldblk | ldwide | anew | ainput | achain | aresult => cases h
  | stblk =>
    rw [exec_stblk]
    exact withSource_find? h nofun
  | swap | mvlh | mvhl => exact unary_first_unwritten h
  | vxor | pmul | fmul | fadd => exact binary_first_unwritten h

theorem exec_completes {i : Instr} {s : State} (hl : needsLive i = false ∨ s.live = true)
    (hs : ∀ r ∈ sources i, s.isWritten r = true) : ∃ t, exec i s = .next t := by
  cases i with
  | ldblk | ldwide | vxor | pmul | swap | mvlh | mvhl | fmul | fadd => exact ⟨_, exec_of_destination rfl hs⟩
  | stblk ra => exact ⟨_, exec_stblk_written (hs ra (List.mem_singleton_self ra))⟩
  | anew => exact ⟨_, exec_anew s⟩
  | ainput | achain | aresult => exact ⟨_, withLive_live _ (hl.resolve_left nofun)⟩

end Sys2Proof.Machine
end

section
/-! Systems of cores (60_exceptions.md R87): a step of core `k` replaces that core and nothing else, and keeps every
core under the one configuration. -/

namespace Sys2Proof.Machine

/-! ### One core of a system replaced -/

/-- The system in which core `k` is now `c`; the same system where there is no core `k`. -/
def System.replaceCore (sys : System) (k : Nat) (c : CoreRun) : System := { sys with cores := sys.cores.set k c }

@[simp] theorem replaceCore_cfg (sys : System) (k : Nat) (c : CoreRun) : (sys.replaceCore k c).cfg = sys.cfg := rfl

@[simp] theorem replaceCore_cores (sys : System) (k : Nat) (c : CoreRun) :
    (sys.replaceCore k c).cores = sys.cores.set k c := rfl

theorem getElem?_replaceCore_other (sys : System) (c : CoreRun) {j k : Nat} (h : j ≠ k) :
    (sys.replaceCore k c).cores[j]? = sys.cores[j]? :=
  List.getElem?_set_ne h.symm

theorem replaceCore_comm (sys : System) (c d : CoreRun) {j k : Nat} (h : j ≠ k) :
    (sys.replaceCore j c).replaceCore k d = (sys.replaceCore k d).replaceCore j c := by
  simp [System.replaceCore, List.set_comm c d h]

/-! ### Well-formed systems -/

theorem system_wellFormed_iff (sys : System) :
    sys.wellFormed = true ↔ sys.cfg.wellFormed = true ∧ ∀ c ∈ sys.cores, c.underConfig sys.cfg = true := by
  rw [System.wellFormed, System.uniform, Bool.and_eq_true, List.all_eq_true]

theorem underConfig_running_iff (c : Config) (s : State) :
    (CoreRun.running s).underConfig c = true ↔ s.cfg = c := by
  rw [CoreRun.underConfig, beq_iff_eq]

theorem replaceCore_wellFormed {sys : System} {c : CoreRun} (h : sys.wellFormed = true)
    (hc : c.underConfig sys.cfg = true) (k : Nat) : (sys.replaceCore k c).wellFormed = true := by
  rw [system_wellFormed_iff] at h ⊢
  obtain ⟨hcfg, hall⟩ := h
  refine ⟨hcfg, fun d hd => ?_⟩
  obtain hd | rfl := List.mem_or_eq_of_mem_set hd
  · exact hall d hd
  · exact hc

theorem addCore_wellFormed {sys : System} (h : sys.wellFormed = true) : sys.addCore.wellFormed = true := by
  rw [system_wellFormed_iff] at h ⊢
  obtain ⟨hcfg, hall⟩ := h
  refine ⟨hcfg, fun d hd => ?_⟩
  rw [addCore_cores, List.mem_append, List.mem_singleton] at hd
  obtain hd | rfl := hd
  · exact hall d hd
  · exact (underConfig_running_iff _ _).mpr rfl

/-! ### Power-on -/

theorem systemPowerOn_wellFormed {choice : Option Backend} {b : Bool} (n : Nat)
    (h : (Config.select choice b).wellFormed = true) :
    systemPowerOn choice b n
      = .next ⟨Config.select choice b, List.replicate n (.running (State.resetWith (Config.select choice b)))⟩ := by
  rw [systemPowerOn, h]

theorem systemPowerOn_illFormed {choice : Option Backend} {b : Bool} (n : Nat)
    (h : (Config.select choice b).wellFormed = false) : systemPowerOn choice b n = .refused .badConfiguration := by
  rw [systemPowerOn, h]

theorem replicate_reset_wellFormed {c : Config} (n : Nat) (h : c.wellFormed = true) :
    System.wellFormed ⟨c, List.replicate n (.running (State.resetWith c))⟩ = true := by
  refine (system_wellFormed_iff _).mpr ⟨h, fun d hd => ?_⟩
  rw [List.eq_of_mem_replicate hd]
  exact (underConfig_running_iff _ _).mpr rfl

/-! ### A step of one core -/

theorem stepCore_illFormed {sys : System} (k : Nat) (h : sys.wellFormed = false) :
    stepCore k sys = some (.refused .badConfiguration) := by
  rw [stepCore, h]

theorem stepCore_of_getElem? {k : Nat} {sys : System} {c : CoreRun} (h : sys.wellFormed = true)
    (hk : sys.cores[k]? = some c) : stepCore k sys = some (.next (sys.replaceCore k c.advance)) := by
  rw [stepCore, h, hk]
  rfl

/-- What core `k` becomes is a function of core `k`. -/
theorem getElem?_stepCore {k : Nat} {sys sys' : System} (h : stepCore k sys = some (.next sys')) :
    sys'.cores[k]? = sys.cores[k]?.map CoreRun.advance := by
  obtain ⟨-, c, hk, rfl⟩ := stepCore_next_cases h
  obtain ⟨hlt, -⟩ := List.getElem?_eq_some_iff.mp hk
  rw [hk, Option.map_some]
  exact List.getElem?_set_self hlt

theorem stepCore_wellFormed {k : Nat} {sys sys' : System} (h : stepCore k sys = some (.next sys')) :
    sys'.wellFormed = true := by
  obtain ⟨hwf, c, hk, rfl⟩ := stepCore_next_cases h
  obtain ⟨-, hall⟩ := (system_wellFormed_iff sys).mp hwf
  exact replaceCore_wellFormed hwf (underConfig_advance (hall c (List.mem_of_getElem? hk))) k

/-- Each order of two steps leaves the two replacements of `replaceCore_comm`. -/
theorem stepCore_stepCore {j k : Nat} {sys : System} {c d : CoreRun} (hjk : j ≠ k) (h : sys.wellFormed = true)
    (hj : sys.cores[j]? = some c) (hk : sys.cores[k]? = some d) :
    stepCore k (sys.replaceCore j c.advance)
      = some (.next ((sys.replaceCore j c.advance).replaceCore k d.advance)) :=
  stepCore_of_getElem? (stepCore_wellFormed (stepCore_of_getElem? h hj))
    ((getElem?_replaceCore_other sys c.advance hjk.symm).trans hk)

end Sys2Proof.Machine
end

section
/-! The statements of 60_exceptions.md. -/

namespace Sys2Proof.Proofs

open Sys2Proof.Machine Sys2Proof.Claim

/-- Settles O29: the lifecycle check comes first, and only commands without sources make it; then the sources in their
order. -/
theorem outcomeOfEveryCommand : Obligations.OutcomeOfEveryCommand := by
  refine fun i s => ⟨exec_dead, fun hl => ⟨fun r => exec_first_unwritten, fun hs => exec_completes hl fun r hr => ?_⟩⟩
  simpa using List.find?_eq_none.mp hs r hr

/-- Settles O37: a step of core `k` is the replacement of core `k` by its own next, and replacements at two positions
commute. -/
theorem coresShareNothing : Obligations.CoresShareNothing := by
  refine ⟨fun sys k c hwf hk => ?_, fun sys₁ sys₂ sys₁' sys₂' k heq h₁ h₂ => ?_, fun sys j k hjk hj hk hwf => ?_⟩
  · have hstep := stepCore_of_getElem? hwf hk
    have hcore : (sys.replaceCore k c.advance).cores[k]? = some c.advance := by
      rw [getElem?_stepCore hstep, hk, Option.map_some]
    have hrun : ∀ s o, c = .running s → step s = o →
        (sys.replaceCore k c.advance).cores[k]? = some (CoreRun.ofResult o) := by
      rintro s o rfl rfl
      exact hcore
    refine ⟨_, hstep, rfl, List.length_set, fun j => getElem?_replaceCore_other sys _, fun s t => hrun s (.next t),
      fun s f => hrun s (.fault f), fun s r => hrun s (.refused r), fun hstopped => ?_⟩
    cases c with
    | running s => exact absurd rfl (hstopped s)
    | faulted f => exact hcore
    | refused r => exact hcore
  · rw [getElem?_stepCore h₁, getElem?_stepCore h₂, heq]
  · have hcj := List.getElem?_eq_getElem hj
    have hck := List.getElem?_eq_getElem hk
    refine ⟨_, _, _, stepCore_of_getElem? hwf hcj, stepCore_stepCore hjk hwf hcj hck,
      stepCore_of_getElem? hwf hck, ?_⟩
    rw [replaceCore_comm sys _ _ hjk]
    exact stepCore_stepCore hjk.symm hwf hck hcj

/-- Settles O51: power-on gives every core the selected configuration, a new core takes the common one, no step changes
it, and a core with another makes the system ill formed. -/
theorem coresHaveOneConfiguration : Obligations.CoresHaveOneConfiguration := by
  refine ⟨fun choice b n => ⟨fun h => ?_, systemPowerOn_illFormed n⟩, fun sys h => ?_, fun sys sys' k h => ?_,
    fun sys k s hk hs j => stepCore_illFormed j ?_⟩
  · refine ⟨_, systemPowerOn_wellFormed n h, replicate_reset_wellFormed n h, rfl, List.length_replicate, fun k hk => ?_⟩
    exact ⟨_, List.getElem?_replicate_of_lt hk, powerOn_wellFormed h⟩
  · exact ⟨addCore_wellFormed h, rfl, List.getElem?_concat_length, fun j hj => List.getElem?_append_left hj⟩
  · have hwf' := stepCore_wellFormed h
    obtain ⟨hwf, c, -, rfl⟩ := stepCore_next_cases h
    exact ⟨hwf, hwf', rfl⟩
  · rw [Bool.eq_false_iff]
    intro hwf
    obtain ⟨-, hall⟩ := (system_wellFormed_iff sys).mp hwf
    exact hs ((underConfig_running_iff _ _).mp (hall _ (List.mem_of_getElem? hk)))

/-- Settles O6: with nothing pending a step is idling. -/
theorem idleCoreKeepsItsState : Obligations.IdleCoreKeepsItsState := fun _ => step_idle

end Sys2Proof.Proofs
end

section
/-! The host's duties (70_reset_and_hazards.md R91, R94; 43_accumulator.md R74). The static check follows the run: it
admits a command exactly where the command completes, it tracks `LIVE` and the written registers as the command leaves
them, and so a step neither gains nor loses safety. -/

namespace Sys2Proof.Proofs

open Sys2Proof.Machine

/-! ### One command -/

theorem admitted_iff (i : Instr) (s : State) :
    admitted i s.live s.written = true ↔
      (needsLive i = false ∨ s.live = true) ∧ ∀ r ∈ sources i, s.isWritten r = true := by
  simp [admitted, State.isWritten]

/-- R91 items 2 and 3: a command completes exactly where the check admits it. -/
theorem exec_completes_iff_admitted (i : Instr) (s : State) :
    (∃ t, exec i s = .next t) ↔ admitted i s.live s.written = true := by
  rw [admitted_iff]
  refine ⟨fun ⟨t, ht⟩ => ⟨?_, fun r hr => ?_⟩, fun ⟨hl, hs⟩ => exec_completes hl hs⟩
  · by_contra! ⟨hi, hl⟩
    rw [exec_dead (by simpa using hi) (by simpa using hl)] at ht
    cases ht
  · by_contra hw
    have hfind : ((sources i).find? fun r => !s.isWritten r).isSome = true :=
      List.find?_isSome.mpr ⟨r, hr, by simpa using hw⟩
    obtain ⟨q, hq⟩ := Option.isSome_iff_exists.mp hfind
    rw [exec_first_unwritten hq] at ht
    cases ht

theorem liveAfter_of_destination {i : Instr} {rd : VIdx} (h : destination i = some rd) (live : Bool) :
    liveAfter i live = live := by
  cases i with
  | stblk | anew | ainput | achain | aresult => cases h
  | ldblk | ldwide | vxor | pmul | swap | mvlh | mvhl | fmul | fadd => rfl

theorem writtenAfter_of_destination {i : Instr} {rd : VIdx} (h : destination i = some rd) (written : Vector Bool 8) :
    writtenAfter i written = written.set rd.val true rd.isLt := by
  rw [writtenAfter, h]

/-- The check predicts `LIVE` and the written registers of a command that completes. -/
theorem exec_live_written {i : Instr} {s t : State} (h : exec i s = .next t) :
    t.live = liveAfter i s.live ∧ t.written = writtenAfter i s.written := by
  obtain ⟨rd, x, hrd, rfl⟩ | ⟨ra, rfl, -, rfl⟩ | ⟨rfl, rfl⟩ | ⟨rfl | rfl, -, rfl⟩ | ⟨rfl, -, rfl⟩ :=
    exec_next_cases h
  · exact ⟨(liveAfter_of_destination hrd s.live).symm, (writtenAfter_of_destination hrd s.written).symm⟩
  · exact ⟨rfl, rfl⟩
  · exact ⟨rfl, rfl⟩
  · exact ⟨rfl, rfl⟩
  · exact ⟨rfl, rfl⟩
  · exact ⟨rfl, rfl⟩

/-! ### Safety, event by event -/

theorem safe_idle {s : State} (hp : s.pending = []) : s.safe = s.cfg.wellFormed := by
  simp [State.safe, hp, admits]

theorem safe_hostReset {s : State} {rest : List HostEvent} (hp : s.pending = .reset :: rest) :
    s.safe = (s.hostReset rest).safe := by
  simp [State.safe, hp, admits, State.hostReset]

theorem safe_reserved {s : State} {w : CmdWord} {din : Block} {rest : List HostEvent}
    (hp : s.pending = .command w din :: rest) (hd : decode w = none) : s.safe = false := by
  simp [State.safe, hp, admits, hd]

theorem safe_command {s : State} {w : CmdWord} {din : Block} {rest : List HostEvent} {i : Instr}
    (hp : s.pending = .command w din :: rest) (hd : decode w = some i) :
    s.safe = (s.cfg.wellFormed && (admitted i s.live s.written
      && admits (liveAfter i s.live) (writtenAfter i s.written) rest)) := by
  simp [State.safe, hp, admits, hd]

/-! ### Safety along a run -/

theorem wellFormed_of_safe {s : State} (h : s.safe = true) : s.cfg.wellFormed = true := by
  rw [State.safe, Bool.and_eq_true] at h
  obtain ⟨hc, -⟩ := h
  exact hc

/-- A safe state has a next state. -/
theorem step_completes_of_safe {s : State} (h : s.safe = true) : ∃ t, step s = .next t := by
  have hc := wellFormed_of_safe h
  cases hp : s.pending with
  | nil => exact ⟨_, step_idle hc hp⟩
  | cons e rest =>
    cases e with
    | reset => exact ⟨_, step_hostReset hc hp⟩
    | command w din =>
      cases hd : decode w with
      | none => simp [safe_reserved hp hd] at h
      | some i =>
        rw [safe_command hp hd, Bool.and_eq_true, Bool.and_eq_true] at h
        obtain ⟨-, hadm, -⟩ := h
        rw [step_command hc hp hd]
        exact (exec_completes_iff_admitted i (s.takeCommand din rest)).mpr hadm

/-- A step that answers a next state leaves the verdict of the check as it was. -/
theorem step_safe {s t : State} (h : step s = .next t) : t.safe = s.safe := by
  obtain ⟨-, ⟨-, rfl⟩ | ⟨rest, hp, rfl⟩ | ⟨w, din, rest, i, hp, hd, hex⟩⟩ := step_next_cases h
  · rfl
  · exact (safe_hostReset hp).symm
  · have hadm : admitted i s.live s.written = true :=
      (exec_completes_iff_admitted i (s.takeCommand din rest)).mp ⟨t, hex⟩
    obtain ⟨hlive, hwritten⟩ := exec_live_written hex
    rw [safe_command hp hd, hadm, Bool.true_and, State.safe, step_cfg h, step_pending h, hp, hlive, hwritten]
    rfl

theorem runSteps_succ_completes_iff {k : Nat} {s : State} :
    (∃ u, runSteps (k + 1) s = .next u) ↔ ∃ t, step s = .next t ∧ ∃ u, runSteps k t = .next u := by
  cases h : step s with
  | next t => simp [runSteps_next k h]
  | fault f => simp [runSteps_fault k h]
  | refused r => simp [runSteps_refused k h]

/-- With as many steps as events pending, and one more that finds none, a run completes exactly from a safe state. -/
theorem runSteps_completes_iff_safe {n : Nat} {s : State} (hn : s.pending.length = n) :
    (∃ u, runSteps (n + 1) s = .next u) ↔ s.safe = true := by
  rw [runSteps_succ_completes_iff]
  induction n generalizing s with
  | zero =>
    refine ⟨fun ⟨t, ht, _⟩ => ?_, fun hs => ?_⟩
    · obtain ⟨hc, -⟩ := step_next_cases ht
      rwa [safe_idle (List.length_eq_zero_iff.mp hn)]
    · obtain ⟨t, ht⟩ := step_completes_of_safe hs
      exact ⟨t, ht, t, runSteps_zero t⟩
  | succ n ih =>
    have htail {t : State} (ht : step s = .next t) : (∃ u, runSteps (n + 1) t = .next u) ↔ s.safe = true := by
      have hlen : t.pending.length = n := by rw [step_pending ht, List.length_tail, hn, Nat.add_sub_cancel]
      rw [runSteps_succ_completes_iff, ih hlen, step_safe ht]
    refine ⟨fun ⟨t, ht, hu⟩ => (htail ht).mp hu, fun hs => ?_⟩
    obtain ⟨t, ht⟩ := step_completes_of_safe hs
    exact ⟨t, ht, (htail ht).mpr hs⟩

end Sys2Proof.Proofs
end

section
/-! The statements of 70_reset_and_hazards.md. -/

namespace Sys2Proof.Proofs

open Sys2Proof.Machine

/-- Settles O36, by induction on the number of pending events: every step of the run keeps the verdict of the check. -/
theorem dutiesDecideCompletion : Obligations.DutiesDecideCompletion := fun _ => runSteps_completes_iff_safe rfl

/-- Settles O9: the step is the reset event, which keeps only the configuration and data-in. -/
theorem resetEventErases : Obligations.ResetEventErases := fun s rest hc hp =>
  ⟨_, step_hostReset hc hp, rfl, rfl, rfl, hostReset_isWritten s rest, rfl, rfl, rfl⟩

end Sys2Proof.Proofs
end

section
/-! The encoder inverts the decoder (30_encoding.md R32, R33, R34): the fields a row's command names are read back from
the command and the others are zero, so a row has at most one word for each command. -/

namespace Sys2Proof

theorem ofBits_injective : Function.Injective Selector.ofBits := by
  decide

/-- A command fixes every field that its format uses. -/
theorem used_fields_eq_of_build_eq {op : Opcode} {w x : CmdWord} (h : op.build w = op.build x) :
    (op.format.uses.1 = true → fieldRd w = fieldRd x)
      ∧ (op.format.uses.2.1 = true → fieldRa w = fieldRa x)
      ∧ (op.format.uses.2.2.1 = true → fieldRb w = fieldRb x)
      ∧ (op.format.uses.2.2.2 = true → fieldSel w = fieldSel x) := by
  cases op <;> simp_all [Opcode.build, Opcode.format, Format.uses, ofBits_injective.eq_iff]

/-- A field that is zero where it is unused (R34) is fixed once its use fixes it. -/
theorem field_eq_of_unused_zero {α : Type} [BEq α] [LawfulBEq α] {used : Bool} {a b zero : α}
    (ha : (used || a == zero) = true) (hb : (used || b == zero) = true) (h : used = true → a = b) : a = b := by
  cases used with
  | true => exact h rfl
  | false => exact (eq_of_beq ha).trans (eq_of_beq hb).symm

/-- Two words of one row that spell the same command are the same word. -/
theorem word_eq_of_build_eq {op : Opcode} {w x : CmdWord} (hw : w &&& op.row.2 = op.row.1)
    (hx : x &&& op.row.2 = op.row.1) (h : op.build w = op.build x) : w = x := by
  obtain ⟨hrd, hra, hrb, hsel⟩ := used_fields_eq_of_build_eq h
  simp only [and_mask_eq_match_iff, Format.unusedZero, Bool.and_eq_true, Bool.not_eq_true'] at hw hx
  obtain ⟨wop, ⟨⟨⟨wrd, wra⟩, wrb⟩, wsel⟩, wz⟩ := hw
  obtain ⟨xop, ⟨⟨⟨xrd, xra⟩, xrb⟩, xsel⟩, xz⟩ := hx
  exact (eq_iff_fields_eq w x).mpr ⟨wop.trans xop.symm, field_eq_of_unused_zero wrd xrd hrd,
    field_eq_of_unused_zero wra xra hra, field_eq_of_unused_zero wrb xrb hrb, wz.trans xz.symm,
    field_eq_of_unused_zero wsel xsel hsel⟩

/-- The opcode of the command names the row, so the words need not be known to lie in one. -/
theorem decode_injective {w x : CmdWord} {i : Instr} (hw : decode w = some i) (hx : decode x = some i) : w = x := by
  obtain ⟨op, wrow, rfl⟩ := (decode_eq_some_iff w i).mp hw
  obtain ⟨op', xrow, hbuild⟩ := (decode_eq_some_iff x _).mp hx
  obtain rfl : op' = op := by simpa using congrArg Instr.opcode hbuild
  exact word_eq_of_build_eq wrow xrow hbuild.symm

theorem encode_of_decode {w : CmdWord} {i : Instr} (h : decode w = some i) : encode i = w :=
  decode_injective (decode_encode i) h

end Sys2Proof
end

section
/-! The statements of 30_encoding.md sections 2 and 7: the encoder and the decoder invert each other, and the spec's
examples. -/

namespace Sys2Proof.Proofs

/-- Settles O2: a command's word decodes to the command, and no other word does. -/
theorem decodeEncodeAgree : Obligations.DecodeEncodeAgree :=
  fun _ _ => ⟨encode_of_decode, decode_of_encode⟩

/-- Settles O1: five of the words are their commands' encodings, and the sixth has bit 2 set. -/
theorem specWordsDecode : Obligations.SpecWordsDecode :=
  ⟨decode_of_encode rfl, decode_of_encode rfl, decode_of_encode rfl, decode_of_encode rfl, decode_of_encode rfl,
    by decide⟩

end Sys2Proof.Proofs
end
